-- ==== Sys2Proof/Word.lean ====
section
/-! DEFINITION. The machine's words: bytes, 16-bit words, the 12-bit addresses of an instruction word, and register
indices (spec 00_scope.md R8, R11, R14). -/

namespace Sys2Proof

/-- An 8-bit value: a general register, a timer, a memory byte (R8). -/
abbrev Byte := BitVec 8

/-- A 16-bit value: `PC`, `I`, a stack slot, an instruction word (R8). -/
abbrev Word := BitVec 16

/-- The operand `nnn = op[11:0]` of an instruction word (R14). -/
abbrev Addr12 := BitVec 12

/-- A 4-bit field of an instruction word (R14: a nibble). -/
abbrev Nibble := BitVec 4

/-- A general register's index, 0x0 to 0xF (R8 `NUM_V`). -/
abbrev Reg := Fin 16

/-- `V0`, the implicit operand of Bnnn. -/
abbrev V0 : Reg := 0

/-- `VF`, the flag register (R8 `FLAG_REG`, R21). -/
abbrev VF : Reg := 15

end Sys2Proof
end

