-- ==== Sys2Proof/Syntax.lean ====
section
/-! DEFINITION. The instructions: one constructor per row of spec/opcode_table.json (spec 30_encoding.md R83), what
decode answers for a word, and the lines of an assembly text (R87). -/

namespace Sys2Proof

/-- The 34 instructions of R83, in the table's order. Operand widths are those of R82, so every term is well formed. -/
inductive Instr where
  /-- 00E0, any `0hh0`: CLS (R150). -/
  | cls
  /-- 00EE, any `0hhE`: RET (R103). -/
  | ret
  /-- 1nnn: JP addr (R104). -/
  | jpAddr (nnn : Addr12)
  /-- 2nnn: CALL addr (R105). -/
  | callAddr (nnn : Addr12)
  /-- 3xkk: SE Vx, byte (R106). -/
  | seByte (x : Reg) (kk : Byte)
  /-- 4xkk: SNE Vx, byte (R107). -/
  | sneByte (x : Reg) (kk : Byte)
  /-- 5xyN: SE Vx, Vy (R108). -/
  | seReg (x y : Reg)
  /-- 6xkk: LD Vx, byte (R120). -/
  | ldByte (x : Reg) (kk : Byte)
  /-- 7xkk: ADD Vx, byte (R121). -/
  | addByte (x : Reg) (kk : Byte)
  /-- 8xy0: LD Vx, Vy (R122). -/
  | ldReg (x y : Reg)
  /-- 8xy1: OR Vx, Vy (R123). -/
  | orReg (x y : Reg)
  /-- 8xy2: AND Vx, Vy (R124). -/
  | andReg (x y : Reg)
  /-- 8xy3: XOR Vx, Vy (R125). -/
  | xorReg (x y : Reg)
  /-- 8xy4: ADD Vx, Vy (R126). -/
  | addReg (x y : Reg)
  /-- 8xy5: SUB Vx, Vy (R127). -/
  | subReg (x y : Reg)
  /-- 8xy6: SHR Vx, with Vy the source under `SHIFT_SOURCE = Vy` (R128). -/
  | shrReg (x y : Reg)
  /-- 8xy7: SUBN Vx, Vy (R129). -/
  | subnReg (x y : Reg)
  /-- 8xyE: SHL Vx, with Vy the source under `SHIFT_SOURCE = Vy` (R130). -/
  | shlReg (x y : Reg)
  /-- 9xyN: SNE Vx, Vy (R109). -/
  | sneReg (x y : Reg)
  /-- Annn: LD I, addr (R180). -/
  | ldI (nnn : Addr12)
  /-- Bnnn: JP V0, addr (R110). -/
  | jpV0 (nnn : Addr12)
  /-- Cxkk: RND Vx, byte (R131). -/
  | rndByte (x : Reg) (kk : Byte)
  /-- Dxyn: DRW Vx, Vy, nibble (R151). -/
  | drw (x y : Reg) (n : Nibble)
  /-- ExhE: SKP Vx (R160). -/
  | skp (x : Reg)
  /-- Exh1: SKNP Vx (R161). -/
  | sknp (x : Reg)
  /-- Fx07: LD Vx, DT (R162). -/
  | ldRegDT (x : Reg)
  /-- Fx0A: LD Vx, K (R163). -/
  | ldRegK (x : Reg)
  /-- Fx15: LD DT, Vx (R164). -/
  | ldDTReg (x : Reg)
  /-- Fx18: LD ST, Vx (R165). -/
  | ldSTReg (x : Reg)
  /-- Fx1E: ADD I, Vx (R181). -/
  | addI (x : Reg)
  /-- Fx29: LD F, Vx (R182). -/
  | ldFont (x : Reg)
  /-- Fx33: LD B, Vx (R183). -/
  | ldBcd (x : Reg)
  /-- Fx55: LD [I], Vx (R184). -/
  | storeRegs (x : Reg)
  /-- Fx65: LD Vx, [I] (R185). -/
  | loadRegs (x : Reg)
  deriving DecidableEq, Repr

/-- What decode answers for a word: one instruction of the table, or NOP for an unmapped word (R76, R92). -/
inductive Decoded where
  | instr (i : Instr)
  | nop
  deriving DecidableEq, Repr

/-- One line of an assembly text: an instruction's word, or a raw data byte `DB 0xhh` (R86, R87). -/
inductive AsmLine where
  | word (i : Instr)
  | db (b : Byte)
  deriving DecidableEq, Repr

end Sys2Proof
end

