-- ==== Sys2Proof/Decode.lean ====
section
/-! DEFINITION. Decode (spec 30_encoding.md R70 to R81): total on every word, two-level, and the encoder written from the
same table (R72, R83). The rows of R83 stand here as data too, so that decode can be compared with them. -/

namespace Sys2Proof

/-- `op[15:12]`, which selects the family (R74). -/
def family (op : Word) : Nibble := op.extractLsb' 12 4

/-- `x = op[11:8]` (R14). -/
def fieldX (op : Word) : Reg := (op.extractLsb' 8 4).toFin

/-- `y = op[7:4]` (R14). -/
def fieldY (op : Word) : Reg := (op.extractLsb' 4 4).toFin

/-- `n = op[3:0]`, the key of families 0x0, 0x8 and 0xE too (R14, R75). -/
def fieldN (op : Word) : Nibble := op.extractLsb' 0 4

/-- `kk = op[7:0]`, the key of family 0xF too (R14, R75). -/
def fieldKK (op : Word) : Byte := op.extractLsb' 0 8

/-- `nnn = op[11:0]` (R14). -/
def fieldNNN (op : Word) : Addr12 := op.extractLsb' 0 12

/-- Family 0x0, keyed by the low nibble only (R78). -/
def decodeFamily0 (op : Word) : Decoded :=
  match (fieldN op).toNat with
  | 0x0 => .instr .cls
  | 0xE => .instr .ret
  | _ => .nop

/-- Family 0x8, keyed by the low nibble (R80). -/
def decodeFamily8 (op : Word) : Decoded :=
  let x := fieldX op
  let y := fieldY op
  match (fieldN op).toNat with
  | 0x0 => .instr (.ldReg x y)
  | 0x1 => .instr (.orReg x y)
  | 0x2 => .instr (.andReg x y)
  | 0x3 => .instr (.xorReg x y)
  | 0x4 => .instr (.addReg x y)
  | 0x5 => .instr (.subReg x y)
  | 0x6 => .instr (.shrReg x y)
  | 0x7 => .instr (.subnReg x y)
  | 0xE => .instr (.shlReg x y)
  | _ => .nop

/-- Family 0xE, keyed by the low nibble only (R79). -/
def decodeFamilyE (op : Word) : Decoded :=
  match (fieldN op).toNat with
  | 0xE => .instr (.skp (fieldX op))
  | 0x1 => .instr (.sknp (fieldX op))
  | _ => .nop

/-- Family 0xF, keyed by the low byte (R81). -/
def decodeFamilyF (op : Word) : Decoded :=
  let x := fieldX op
  match (fieldKK op).toNat with
  | 0x07 => .instr (.ldRegDT x)
  | 0x0A => .instr (.ldRegK x)
  | 0x15 => .instr (.ldDTReg x)
  | 0x18 => .instr (.ldSTReg x)
  | 0x1E => .instr (.addI x)
  | 0x29 => .instr (.ldFont x)
  | 0x33 => .instr (.ldBcd x)
  | 0x55 => .instr (.storeRegs x)
  | 0x65 => .instr (.loadRegs x)
  | _ => .nop

/-- Primary dispatch on the top nibble (R74), sub-dispatch in families 0x0, 0x8, 0xE and 0xF (R75). Families 0x5 and 0x9
do not look at the low nibble (R77). A word no row selects is NOP (R76): decode refuses nothing. -/
def decode (op : Word) : Decoded :=
  match (family op).toNat with
  | 0x0 => decodeFamily0 op
  | 0x1 => .instr (.jpAddr (fieldNNN op))
  | 0x2 => .instr (.callAddr (fieldNNN op))
  | 0x3 => .instr (.seByte (fieldX op) (fieldKK op))
  | 0x4 => .instr (.sneByte (fieldX op) (fieldKK op))
  | 0x5 => .instr (.seReg (fieldX op) (fieldY op))
  | 0x6 => .instr (.ldByte (fieldX op) (fieldKK op))
  | 0x7 => .instr (.addByte (fieldX op) (fieldKK op))
  | 0x8 => decodeFamily8 op
  | 0x9 => .instr (.sneReg (fieldX op) (fieldY op))
  | 0xA => .instr (.ldI (fieldNNN op))
  | 0xB => .instr (.jpV0 (fieldNNN op))
  | 0xC => .instr (.rndByte (fieldX op) (fieldKK op))
  | 0xD => .instr (.drw (fieldX op) (fieldY op) (fieldN op))
  | 0xE => decodeFamilyE op
  | _ => decodeFamilyF op

/-- Why a byte list gives no word. -/
inductive DecodeError where
  /-- Fewer than the two bytes of an instruction (R71). -/
  | truncated
  deriving DecidableEq, Repr

/-- The word whose bytes are `hi` (lower address) and `lo`: the first byte is bits 15..8 (20_memory.md R51). -/
def wordOfBytes (hi lo : Byte) : Word := hi ++ lo

/-- Decode the instruction at the head of a byte list and give the rest of the list (R51, R71). -/
def decodeBytes : List Byte → Except DecodeError (Decoded × List Byte)
  | hi :: lo :: rest => .ok (decode (wordOfBytes hi lo), rest)
  | _ => .error .truncated

/-- Format A: a family and `nnn` (R72). -/
def encodeA (fam : Nibble) (nnn : Addr12) : Word := fam ++ nnn

/-- Format XK: a family, `x` and `kk` (R72). -/
def encodeXK (fam : Nibble) (x : Reg) (kk : Byte) : Word :=
  (fam ++ (BitVec.ofFin x : Nibble) : BitVec 8) ++ kk

/-- Formats XY, XYK and XYN: a family, `x`, `y` and the low nibble (R72). -/
def encodeXYN (fam : Nibble) (x y : Reg) (n : Nibble) : Word :=
  (fam ++ (BitVec.ofFin x : Nibble) : BitVec 8) ++ ((BitVec.ofFin y : Nibble) ++ n : BitVec 8)

/-- The standard word of an instruction (R83, column "standard word"). The bits decode ignores hold what the standard word
has there (assumption log 7). -/
def encode : Instr → Word
  | .cls => 0x00E0
  | .ret => 0x00EE
  | .jpAddr nnn => encodeA 0x1 nnn
  | .callAddr nnn => encodeA 0x2 nnn
  | .seByte x kk => encodeXK 0x3 x kk
  | .sneByte x kk => encodeXK 0x4 x kk
  | .seReg x y => encodeXYN 0x5 x y 0x0
  | .ldByte x kk => encodeXK 0x6 x kk
  | .addByte x kk => encodeXK 0x7 x kk
  | .ldReg x y => encodeXYN 0x8 x y 0x0
  | .orReg x y => encodeXYN 0x8 x y 0x1
  | .andReg x y => encodeXYN 0x8 x y 0x2
  | .xorReg x y => encodeXYN 0x8 x y 0x3
  | .addReg x y => encodeXYN 0x8 x y 0x4
  | .subReg x y => encodeXYN 0x8 x y 0x5
  | .shrReg x y => encodeXYN 0x8 x y 0x6
  | .subnReg x y => encodeXYN 0x8 x y 0x7
  | .shlReg x y => encodeXYN 0x8 x y 0xE
  | .sneReg x y => encodeXYN 0x9 x y 0x0
  | .ldI nnn => encodeA 0xA nnn
  | .jpV0 nnn => encodeA 0xB nnn
  | .rndByte x kk => encodeXK 0xC x kk
  | .drw x y n => encodeXYN 0xD x y n
  | .skp x => encodeXK 0xE x 0x9E
  | .sknp x => encodeXK 0xE x 0xA1
  | .ldRegDT x => encodeXK 0xF x 0x07
  | .ldRegK x => encodeXK 0xF x 0x0A
  | .ldDTReg x => encodeXK 0xF x 0x15
  | .ldSTReg x => encodeXK 0xF x 0x18
  | .addI x => encodeXK 0xF x 0x1E
  | .ldFont x => encodeXK 0xF x 0x29
  | .ldBcd x => encodeXK 0xF x 0x33
  | .storeRegs x => encodeXK 0xF x 0x55
  | .loadRegs x => encodeXK 0xF x 0x65

/-- A word's two bytes as memory holds them, high byte first (R51). -/
def bytesOfWord (w : Word) : List Byte := [w.extractLsb' 8 8, w.extractLsb' 0 8]

/-- The bytes of an assembly text (R87): every line is one word of R83 or a data byte. -/
def assemble (lines : List AsmLine) : List Byte :=
  lines.flatMap fun
    | .word i => bytesOfWord (encode i)
    | .db b => [b]

/-- A row of R83: a word `w` selects it when `w &&& mask = value`. -/
structure OpcodeRow where
  value : Word
  mask : Word
  deriving DecidableEq, Repr

/-- R83's match and mask of an instruction's row. -/
def opcodeRow : Instr → OpcodeRow
  | .cls => ⟨0x0000, 0xF00F⟩
  | .ret => ⟨0x000E, 0xF00F⟩
  | .jpAddr _ => ⟨0x1000, 0xF000⟩
  | .callAddr _ => ⟨0x2000, 0xF000⟩
  | .seByte _ _ => ⟨0x3000, 0xF000⟩
  | .sneByte _ _ => ⟨0x4000, 0xF000⟩
  | .seReg _ _ => ⟨0x5000, 0xF000⟩
  | .ldByte _ _ => ⟨0x6000, 0xF000⟩
  | .addByte _ _ => ⟨0x7000, 0xF000⟩
  | .ldReg _ _ => ⟨0x8000, 0xF00F⟩
  | .orReg _ _ => ⟨0x8001, 0xF00F⟩
  | .andReg _ _ => ⟨0x8002, 0xF00F⟩
  | .xorReg _ _ => ⟨0x8003, 0xF00F⟩
  | .addReg _ _ => ⟨0x8004, 0xF00F⟩
  | .subReg _ _ => ⟨0x8005, 0xF00F⟩
  | .shrReg _ _ => ⟨0x8006, 0xF00F⟩
  | .subnReg _ _ => ⟨0x8007, 0xF00F⟩
  | .shlReg _ _ => ⟨0x800E, 0xF00F⟩
  | .sneReg _ _ => ⟨0x9000, 0xF000⟩
  | .ldI _ => ⟨0xA000, 0xF000⟩
  | .jpV0 _ => ⟨0xB000, 0xF000⟩
  | .rndByte _ _ => ⟨0xC000, 0xF000⟩
  | .drw _ _ _ => ⟨0xD000, 0xF000⟩
  | .skp _ => ⟨0xE00E, 0xF00F⟩
  | .sknp _ => ⟨0xE001, 0xF00F⟩
  | .ldRegDT _ => ⟨0xF007, 0xF0FF⟩
  | .ldRegK _ => ⟨0xF00A, 0xF0FF⟩
  | .ldDTReg _ => ⟨0xF015, 0xF0FF⟩
  | .ldSTReg _ => ⟨0xF018, 0xF0FF⟩
  | .addI _ => ⟨0xF01E, 0xF0FF⟩
  | .ldFont _ => ⟨0xF029, 0xF0FF⟩
  | .ldBcd _ => ⟨0xF033, 0xF0FF⟩
  | .storeRegs _ => ⟨0xF055, 0xF0FF⟩
  | .loadRegs _ => ⟨0xF065, 0xF0FF⟩

/-- The bits decode examines or hands on as an operand: all but those R72 marks "-" (R77, R78, R79). -/
def examinedBits : Instr → Word
  | .cls | .ret => 0xF00F
  | .seReg _ _ | .sneReg _ _ => 0xFFF0
  | .skp _ | .sknp _ => 0xFF0F
  | _ => 0xFFFF

/-- The 34 rows of R83, in the table's order. -/
def opcodeRows : List OpcodeRow :=
  [ ⟨0x0000, 0xF00F⟩, ⟨0x000E, 0xF00F⟩, ⟨0x1000, 0xF000⟩, ⟨0x2000, 0xF000⟩, ⟨0x3000, 0xF000⟩, ⟨0x4000, 0xF000⟩,
    ⟨0x5000, 0xF000⟩, ⟨0x6000, 0xF000⟩, ⟨0x7000, 0xF000⟩, ⟨0x8000, 0xF00F⟩, ⟨0x8001, 0xF00F⟩, ⟨0x8002, 0xF00F⟩,
    ⟨0x8003, 0xF00F⟩, ⟨0x8004, 0xF00F⟩, ⟨0x8005, 0xF00F⟩, ⟨0x8006, 0xF00F⟩, ⟨0x8007, 0xF00F⟩, ⟨0x800E, 0xF00F⟩,
    ⟨0x9000, 0xF000⟩, ⟨0xA000, 0xF000⟩, ⟨0xB000, 0xF000⟩, ⟨0xC000, 0xF000⟩, ⟨0xD000, 0xF000⟩, ⟨0xE00E, 0xF00F⟩,
    ⟨0xE001, 0xF00F⟩, ⟨0xF007, 0xF0FF⟩, ⟨0xF00A, 0xF0FF⟩, ⟨0xF015, 0xF0FF⟩, ⟨0xF018, 0xF0FF⟩, ⟨0xF01E, 0xF0FF⟩,
    ⟨0xF029, 0xF0FF⟩, ⟨0xF033, 0xF0FF⟩, ⟨0xF055, 0xF0FF⟩, ⟨0xF065, 0xF0FF⟩ ]

/-- A word selects a row of R83. -/
abbrev OpcodeRow.selectedBy (row : OpcodeRow) (w : Word) : Prop := w &&& row.mask = row.value

/-- The instruction decode reads from the `nbits` low bits of `w`, the bits above them zero: the word's two bytes as memory
holds them, given to `decodeBytes`; none for NOP. -/
def decodeTableWord (nbits w : Nat) : Option Instr :=
  match decodeBytes (bytesOfWord (BitVec.ofNat 16 (w % 2 ^ nbits))) with
  | .ok (.instr i, _) => some i
  | _ => none

end Sys2Proof
end

