-- ==== Sys2Proof/Config.lean ====
section
/-! DEFINITION. What one machine fixes: the constants of spec 00_scope.md R8, the parameters of R9 that the source
leaves open, and the one free value, the byte a draw of the byte source gives. -/

namespace Sys2Proof

/-- `MEM_SIZE` (R8): the addresses are 0x000 to 0xFFF. -/
abbrev Config.memSize : Nat := 0x1000

/-- `FONT_SIZE` (R8): 16 glyphs of 5 bytes. -/
abbrev Config.fontSize : Nat := 80

/-- `ALIAS_ORDER` (R9, R134): what the result computation of 8xy5, 8xy6, 8xy7 and 8xyE reads after the flag write. -/
inductive AliasOrder where
  /-- The register file as it stands after the flag write (the spec's default, D11). -/
  | sequential
  /-- Every operand is read once, before any write. -/
  | snapshot
  deriving DecidableEq, Repr

/-- `SHIFT_SOURCE` (R9, R128): the register 8xy6 and 8xyE shift. -/
inductive ShiftSource where
  /-- `Vx` (the spec's default, D12). -/
  | vx
  /-- `Vy`. -/
  | vy
  deriving DecidableEq, Repr

/-- The parameters of R9 that a step reads. `RNG_STREAM` is `Config.randomByte`, `PIXEL_ON` an argument of the ReadFB
port. -/
structure Params where
  /-- `FONT_BASE`. -/
  fontBase : Word
  /-- `FONT_DATA`: glyph `d` at offset `5*d` (R36). -/
  fontData : Vector Byte 80
  /-- `ALIAS_ORDER`. -/
  aliasOrder : AliasOrder
  /-- `SHIFT_SOURCE`. -/
  shiftSource : ShiftSource
  deriving DecidableEq, Repr

/-- `RNG_STREAM` (R9, R40, D17): the byte that draw number `n` of a byte source seeded with `seed` gives. A FREE VALUE:
it has no body, so no proof can know it (assumption log 2). -/
opaque Config.randomByte : (seed : Nat) → (n : Nat) → Byte

end Sys2Proof
end

