-- ==== Sys2Proof/Machine/Defaults.lean ====
section
/-! DEFINITION. The values the spec gives the parameters by default and the machine after initialisation (spec
00_scope.md R8, R9; 10_state.md R36, R42). -/

namespace Sys2Proof.Machine

/-- `ENTRY` (R8, R59): where a program is loaded and execution starts. -/
def entry : Word := 0x200

/-- The standard font, the default of `FONT_DATA`: glyphs 0 to F, 5 bytes each (R36). -/
def standardFont : Vector Byte 80 :=
  #v[ 0xF0, 0x90, 0x90, 0x90, 0xF0,  0x20, 0x60, 0x20, 0x20, 0x70,
      0xF0, 0x10, 0xF0, 0x80, 0xF0,  0xF0, 0x10, 0xF0, 0x10, 0xF0,
      0x90, 0x90, 0xF0, 0x10, 0x10,  0xF0, 0x80, 0xF0, 0x10, 0xF0,
      0xF0, 0x80, 0xF0, 0x90, 0xF0,  0xF0, 0x10, 0x20, 0x40, 0x40,
      0xF0, 0x90, 0xF0, 0x90, 0xF0,  0xF0, 0x90, 0xF0, 0x10, 0xF0,
      0xF0, 0x90, 0xF0, 0x90, 0x90,  0xE0, 0x90, 0xE0, 0x90, 0xE0,
      0xF0, 0x80, 0x80, 0x80, 0xF0,  0xE0, 0x90, 0x90, 0x90, 0xE0,
      0xF0, 0x80, 0xF0, 0x80, 0xF0,  0xF0, 0x80, 0xF0, 0x80, 0x80 ]

/-- R9's defaults: `FONT_BASE` 0x050, the standard font, `sequential`, `Vx` (assumption log 1). -/
def defaultParams : Params :=
  { fontBase := 0x050, fontData := standardFont, aliasOrder := .sequential, shiftSource := .vx }

end Sys2Proof.Machine
end

