-- ==== Sys2Proof/Machine/State.lean ====
section
/-! DEFINITION. The machine's state as plain data (spec 10_state.md section 1), the causes a step can raise, and the state
after initialisation (R42). -/

namespace Sys2Proof.Machine

/-- The causes of R201 that a step can raise. -/
inductive Cause where
  /-- Code 1: the fetch, when `PC > 0xFFE`. -/
  | fetchRange
  /-- Code 2: Dxyn, Fx33, Fx55, Fx65, at an effective address above 0xFFF. -/
  | memRange
  /-- Code 3: 2nnn with 16 return addresses on the stack. -/
  | stackOverflow
  /-- Code 4: 00EE with an empty stack. -/
  | stackUnderflow
  /-- Code 5: Ex9E and ExA1 with a key index above 0xF. -/
  | keyRange
  deriving DecidableEq, Repr

/-- What `raise Fault(cause, info)` names (R13, R200); `info` goes to `FAULT_ADDR`. -/
structure Raise where
  cause : Cause
  info : BitVec 17
  deriving DecidableEq, Repr

/-- The four fault status registers (R32). -/
structure FaultStatus where
  /-- `FAULT_CAUSE`: 0 = running, otherwise a code of R201. -/
  cause : Byte
  /-- `FAULT_PC`: the fetch address of the faulting instruction. -/
  pc : Word
  /-- `FAULT_OPCODE`: the faulting instruction word, 0 for a fetch fault. -/
  opcode : Word
  /-- `FAULT_ADDR`: the first out-of-range address, the offending key value, or 0. -/
  addr : BitVec 17
  deriving DecidableEq, Repr

/-- The byte source (R40). -/
structure Rng where
  /-- The seed given to Init (R213). -/
  seed : Nat
  /-- How many bytes have been drawn: the model's own counter, which makes every draw a fresh free value (log 3). -/
  drawn : Nat
  /-- The draws a test harness has fixed, next one first (R40); empty when no harness does (log 3). -/
  forced : List Byte
  deriving DecidableEq, Repr

/-- `MEM` as the cells that differ from the reset contents, addresses strictly rising (log 6). -/
abbrev Memory := List Host.Cell

/-- `FB`: 32 rows of 64 cells, row 0 at the top, column 0 at the left; `true` = on (R35). -/
abbrev Framebuffer := Vector (Vector Bool 64) 32

/-- The whole state of the core (R39). -/
structure State where
  /-- `V[0..15]` (R20). -/
  v : Vector Byte 16
  /-- `I` (R28). -/
  i : Word
  /-- `PC` (R24). -/
  pc : Word
  /-- `SP`, 0 to 16: how many stack slots are occupied (R30). -/
  sp : Fin 17
  /-- `STACK[0..15]` (R29). -/
  stack : Vector Word 16
  /-- `DT` (R31). -/
  dt : Byte
  /-- `ST` (R31). -/
  st : Byte
  /-- `MEM[0x000..0xFFF]` (R34). -/
  mem : Memory
  /-- `FB` (R35). -/
  fb : Framebuffer
  /-- `KEY[0..15]`, `true` = pressed (R37). -/
  keys : Vector Bool 16
  /-- `OPCODE`, the word the last step fetched (R38). -/
  opcode : Word
  /-- The byte source (R40). -/
  rng : Rng
  /-- The fault status registers (R32). -/
  fault : FaultStatus
  /-- The parameters of R9: no part of the core's changing state, and no step writes them (log 1). -/
  params : Params
  deriving DecidableEq, Repr

/-- Reasons for a step to end in `Outcome.fault`. It has NO constructor: every fault of the spec is a precise halt that the
machine itself records (R200), so it is a NEXT state with the fault status registers written, and a halted core still steps
(R95). Nothing raises one; that is safe, the outcome cannot occur (log 4). -/
inductive Fault where
  deriving DecidableEq, Repr

/-- Reasons for a step to be refused. -/
inductive Refusal where
  /-- An instruction that has no meaning yet, named as spec/opcode_table.json names it. Only an arm of `exec` may raise it;
  none does, every instruction has its meaning. Safe: a refused step says nothing about the core. -/
  | notModelled (mnemonic : String)
  deriving DecidableEq, Repr

/-- The outcome of a step or of a meaning. -/
abbrev Result := Host.Outcome State Fault Refusal

/-- Every cell off. -/
def Framebuffer.blank : Framebuffer := Vector.replicate 32 (Vector.replicate 64 false)

/-- No fault: the four registers at 0 (R32). -/
def FaultStatus.none : FaultStatus := { cause := 0, pc := 0, opcode := 0, addr := 0 }

/-- The state initialisation leaves (R42, 70_reset_and_hazards.md R230), for a machine with parameters `p` and a byte
source `rng`. Memory lists nothing: it reads as R58's contents after init. -/
def State.initial (p : Params) (rng : Rng) : State :=
  { v := Vector.replicate 16 0, i := 0, pc := entry, sp := 0, stack := Vector.replicate 16 0, dt := 0, st := 0,
    mem := [], fb := Framebuffer.blank, keys := Vector.replicate 16 false, opcode := 0, rng := rng,
    fault := FaultStatus.none, params := p }

/-- The machine right after `Init`, with the spec's default parameters (R9, R42); the seed is the model's (log 3). -/
def State.reset : State := State.initial defaultParams { seed := 0, drawn := 0, forced := [] }

end Sys2Proof.Machine
end

