-- ==== Sys2Proof/WellFormed.lean ====
section
/-! DEFINITION. The checks a term must pass before the machine may take it. An `Instr` needs none: its operands have the
widths of spec 30_encoding.md R82 in their types, so no ill-formed instruction can be written down. What the types leave
to check is a machine's parameters (00_scope.md R10) and a program image (20_memory.md R67). -/

namespace Sys2Proof

/-- R10: the font lies wholly below the program region, `FONT_BASE + 80 <= ENTRY`. -/
abbrev Params.WellFormed (p : Params) : Prop := p.fontBase.toNat + 80 ≤ 0x200

/-- R67: a program image fits, `L <= 0x1000 - 0x200 = 3584`. -/
abbrev imageWellFormed (image : List Byte) : Prop := image.length ≤ 3584

end Sys2Proof
end

