-- ==== Sys2Proof/Machine/Ops.lean ====
section
/-! DEFINITION. The named operations over the state: registers, memory, stack, byte source, faults, and the parts of the
step around a handler (spec 10_state.md, 20_memory.md, 40_cycle.md, 41_control_flow.md R100 to R102, 60_exceptions.md
R200). A handler starts with `PC = A + 2`, `A` being its fetch address (R91). -/

namespace Sys2Proof.Machine

/-! ### Registers -/

/-- `V[r]` (R20). -/
def State.getV (s : State) (r : Reg) : Byte := s.v[r.val]'r.isLt

/-- `V[r] <- b` (R20). No register is hardwired. -/
def State.setV (s : State) (r : Reg) (b : Byte) : State := { s with v := s.v.set r.val b r.isLt }

/-- `PC <- a` (R24). -/
def State.setPC (s : State) (a : Word) : State := { s with pc := a }

/-- `I <- a` (R28). -/
def State.setI (s : State) (a : Word) : State := { s with i := a }

/-- `DT <- b` (R31). -/
def State.setDT (s : State) (b : Byte) : State := { s with dt := b }

/-- `ST <- b` (R31). -/
def State.setST (s : State) (b : Byte) : State := { s with st := b }

/-- `SkipIf(c)`: a taken skip leaves `PC = A + 4` (R101). -/
def State.skipIf (s : State) (c : Bool) : State := if c then s.setPC (s.pc + 2) else s

/-! ### Memory -/

/-- What byte `a` of memory holds after initialisation, which is what an unlisted address reads as: the font at
`FONT_BASE`, 0 elsewhere (R42, R58). -/
def resetByte (p : Params) (a : Nat) : Byte :=
  if h : p.fontBase.toNat ≤ a ∧ a - p.fontBase.toNat < 80 then p.fontData[a - p.fontBase.toNat]'h.2 else 0

/-- The canonical form of a memory: addresses strictly rising, every one inside the address space, and no entry equal to
what an unlisted address reads as. -/
abbrev Memory.wf (p : Params) (m : Memory) : Prop :=
  m.Pairwise (fun c d => c.1 < d.1) ∧ ∀ c ∈ m, c.1 < Config.memSize ∧ c.2 ≠ resetByte p c.1

/-- The byte at an address. -/
def Memory.read (p : Params) : Memory → Nat → Byte
  | [], a => resetByte p a
  | (k, b) :: rest, a => if k = a then b else Memory.read p rest a

/-- The cells that make address `a` hold `b`, before the cells of `rest`. -/
def Memory.cell (p : Params) (a : Nat) (b : Byte) (rest : Memory) : Memory :=
  if b = resetByte p a then rest else (a, b) :: rest

/-- Store one byte, keeping the canonical form. -/
def Memory.write (p : Params) : Memory → Nat → Byte → Memory
  | [], a, b => Memory.cell p a b []
  | (k, c) :: rest, a, b =>
    if a < k then Memory.cell p a b ((k, c) :: rest)
    else if a = k then Memory.cell p a b rest
    else (k, c) :: Memory.write p rest a b

/-- `MemRead(a, 1)`, the range already checked (R13, R55). -/
def State.readByte (s : State) (a : Nat) : Byte := Memory.read s.params s.mem a

/-- `MemWrite(a, 1, b)`, the range already checked (R13, R55). -/
def State.writeByte (s : State) (a : Nat) (b : Byte) : State := { s with mem := Memory.write s.params s.mem a b }

/-- Store a list of bytes at consecutive addresses, in order (R53). -/
def State.writeBytes (s : State) : Nat → List Byte → State
  | _, [] => s
  | a, b :: bs => (s.writeByte a b).writeBytes (a + 1) bs

/-! ### Faults -/

/-- R201's code of a cause. -/
def Cause.code : Cause → Byte
  | .fetchRange => 1
  | .memRange => 2
  | .stackOverflow => 3
  | .stackUnderflow => 4
  | .keyRange => 5

/-- TAKING A FAULT (R200, R204): the instruction at `a`, whose word is `w` (0 for a fetch fault), raised `r`. `PC` stays
at that instruction, the four status registers are written, nothing else changes and no control is transferred. There is
no return from a fault: only initialisation leaves the halted state (R206). -/
def State.takeFault (s : State) (a w : Word) (r : Raise) : State :=
  { s with pc := a, fault := { cause := r.cause.code, pc := a, opcode := w, addr := r.info } }

/-- `raise Fault(cause, info)` inside a handler, from the state the handler started with: its fetch address is `PC - 2`
and the fetched word is in `OPCODE` (R91, R200). -/
def State.raise (s : State) (r : Raise) : State := s.takeFault (s.pc - 2) s.opcode r

/-- A handler's outcome: the state it computed, or the fault it raised, from the state `s` it started with. Either way the
machine goes on to a next state. -/
def State.conclude (s : State) : Except Raise State → Result
  | .ok t => .next t
  | .error r => .next (s.raise r)

/-- `FAULT_CAUSE != 0`: the core is halted (R95). -/
def State.halted (s : State) : Bool := s.fault.cause != 0

/-! ### Stack -/

/-- `Push(w)` (R100): faults when all 16 slots are occupied. -/
def State.push (s : State) (w : Word) : Except Raise State :=
  if h : s.sp.val < 16 then
    .ok { s with stack := s.stack.set s.sp.val w h, sp := ⟨s.sp.val + 1, by omega⟩ }
  else .error ⟨.stackOverflow, 0⟩

/-- `Pop()` (R102): the value and the state with the slot freed, not cleared; faults on an empty stack. -/
def State.pop (s : State) : Except Raise (Word × State) :=
  if h : s.sp.val = 0 then .error ⟨.stackUnderflow, 0⟩
  else .ok (s.stack[s.sp.val - 1]'(by omega), { s with sp := ⟨s.sp.val - 1, by omega⟩ })

/-! ### Byte source -/

/-- The byte the next draw gives: the harness's, if it has fixed one, else a free value (R40, D17, log 2). -/
def Rng.nextByte (g : Rng) : Byte :=
  match g.forced with
  | b :: _ => b
  | [] => Config.randomByte g.seed g.drawn

/-- The byte source after one draw. -/
def Rng.advance (g : Rng) : Rng := { g with drawn := g.drawn + 1, forced := g.forced.tail }

/-- `DrawRandomByte()`'s effect on the state: exactly one draw is consumed (R40, R131). -/
def State.drawRandom (s : State) : State := { s with rng := s.rng.advance }

/-! ### The step around a handler -/

/-- The first out-of-range address of the fetch at `PC`, if there is one (R55, R90). -/
def State.badFetch (s : State) : Option Nat :=
  if s.pc.toNat > 0xFFF then some s.pc.toNat
  else if s.pc.toNat + 1 > 0xFFF then some (s.pc.toNat + 1)
  else none

/-- The word at `PC`, high byte first (R51). -/
def State.fetchWord (s : State) : Word := wordOfBytes (s.readByte s.pc.toNat) (s.readByte (s.pc.toNat + 1))

/-- Load `OPCODE` and advance `PC` by 2, before the handler runs (R91). -/
def State.fetched (s : State) : State := { s with opcode := s.fetchWord, pc := s.pc + 2 }

/-- A timer's decrement: never below 0 (R93). -/
def tickTimer (b : Byte) : Byte := if b = 0 then 0 else b - 1

/-- The end of a step that did not fault (R93). -/
def State.tick (s : State) : State := { s with dt := tickTimer s.dt, st := tickTimer s.st }

/-- The end of the step that started in `s` and whose handler left `t`: a fault discards everything the step did except the
fault status (R98), and otherwise the timers count (R93). -/
def State.finish (s t : State) : State := if t.halted then { s with fault := t.fault } else t.tick

/-- A step's outcome from its handler's. -/
def finishResult (s : State) : Result → Result
  | .next t => .next (s.finish t)
  | .fault r => .fault r
  | .refused r => .refused r

/-- A fetch fault at the address `a` (R90, R200): the word is 0. -/
def State.fetchFault (s : State) (a : Nat) : State :=
  s.takeFault s.pc 0 ⟨.fetchRange, BitVec.ofNat 17 a⟩

/-- The handler of every unmapped word: nothing (R94). -/
def execNop (s : State) : Result := .next s

end Sys2Proof.Machine
end

