-- ==== Sys2Proof/Machine/Flags.lean ====
section
/-! DEFINITION. The flag computations of VF and the flag-then-result order (spec 10_state.md R21, R22; 42_arithmetic.md
R126 to R134). -/

namespace Sys2Proof.Machine

/-- A flag as the byte VF holds: 1 or 0 (R21). -/
def flagByte (c : Bool) : Byte := if c then 1 else 0

/-- The carry of 8xy4: the exact sum exceeds 255 (R126, R133). -/
def carryFlag (a b : Byte) : Byte := flagByte (decide (a.toNat + b.toNat > 255))

/-- The flag of 8xy5 and 8xy7: strictly greater (R133). -/
def greaterFlag (a b : Byte) : Byte := flagByte (decide (a.toNat > b.toNat))

/-- The low 8 bits of the exact sum (R121, R126, R132). -/
def sumByte (a b : Byte) : Byte := BitVec.ofNat 8 (a.toNat + b.toNat)

/-- `trunc_8(a - b)`: the exact difference, wrapped (R12, R132). -/
def diffByte (a b : Byte) : Byte := BitVec.ofInt 8 ((a.toNat : Int) - (b.toNat : Int))

/-- Bit 0 of the source, the flag of 8xy6 (R128). -/
def lowBitFlag (a : Byte) : Byte := flagByte (a.getLsbD 0)

/-- Bit 7 of the source, the flag of 8xyE (R130). -/
def highBitFlag (a : Byte) : Byte := flagByte (a.getLsbD 7)

/-- `V[x] >> 1` (R128). -/
def shiftRight1 (a : Byte) : Byte := BitVec.ofNat 8 (a.toNat / 2)

/-- `trunc_8(V[x] << 1)` (R130). -/
def shiftLeft1 (a : Byte) : Byte := BitVec.ofNat 8 (a.toNat * 2)

/-- Flag first, then the result (R22, R134). The result is computed from the register file after the flag write when
`ALIAS_ORDER = sequential`, from the one before it when `ALIAS_ORDER = snapshot`. -/
def State.flagThenResult (s : State) (x : Reg) (flag : Byte) (result : State → Byte) : State :=
  let t := s.setV VF flag
  match s.params.aliasOrder with
  | .sequential => t.setV x (result t)
  | .snapshot => t.setV x (result s)

end Sys2Proof.Machine
end

