-- ==== Sys2Proof/Machine/Operands.lean ====
section
/-! DEFINITION. Operand forms: effective addresses and their range check (spec 20_memory.md R54, R55), register ranges,
the key index (44_keys_timers.md R159), the shift source (42_arithmetic.md R128) and the BCD digits (45_index_memory.md
R183). -/

namespace Sys2Proof.Machine

/-- The first of the `len` effective addresses `base, base + 1, …` that lies above 0xFFF (R54: exact integers, R55). -/
def firstBadAddress (base len : Nat) : Option Nat :=
  ((List.range len).map (base + ·)).find? (fun a => decide (a > 0xFFF))

/-- An instruction's range check on all its effective addresses `I, …, I + len - 1`, made before any write (R55). -/
def State.checkRange (s : State) (len : Nat) : Except Raise Unit :=
  match firstBadAddress s.i.toNat len with
  | some a => .error ⟨.memRange, BitVec.ofNat 17 a⟩
  | none => .ok ()

/-- The registers V0 to Vx, in order (R184, R185). -/
def regsUpTo (x : Reg) : List Reg := (List.finRange 16).take (x.val + 1)

/-- The key index in a register value: above 0xF it raises KEY_RANGE with that value (R159). -/
def keyIndex (b : Byte) : Except Raise (Fin 16) :=
  if h : b.toNat < 16 then .ok ⟨b.toNat, h⟩ else .error ⟨.keyRange, b.setWidth 17⟩

/-- `KEY[k]` (R37). -/
def State.keyPressed (s : State) (k : Fin 16) : Bool := s.keys[k.val]'k.isLt

/-- The lowest-indexed pressed key, if any key is pressed (R163). -/
def State.lowestKey (s : State) : Option (Fin 16) := (List.finRange 16).find? s.keyPressed

/-- The register 8xy6 and 8xyE shift, by `SHIFT_SOURCE` (R128). -/
def State.shiftSource (s : State) (x y : Reg) : Reg :=
  match s.params.shiftSource with
  | .vx => x
  | .vy => y

/-- The three decimal digits of a byte, hundreds first (R183). -/
def bcdDigits (b : Byte) : List Byte :=
  [BitVec.ofNat 8 (b.toNat / 100), BitVec.ofNat 8 (b.toNat / 10 % 10), BitVec.ofNat 8 (b.toNat % 10)]

end Sys2Proof.Machine
end

