-- ==== Sys2Proof/Machine/Arith.lean ====
section
/-! DEFINITION. Register loads, arithmetic, logic, shifts and random (spec 42_arithmetic.md). -/

namespace Sys2Proof.Machine

/-- LD Vx, byte (R120). -/
def execLdByte (x : Reg) (kk : Byte) (s : State) : Result := .next (s.setV x kk)

/-- ADD Vx, byte: no flag, even on wrap (R121). -/
def execAddByte (x : Reg) (kk : Byte) (s : State) : Result := .next (s.setV x (sumByte (s.getV x) kk))

/-- LD Vx, Vy (R122). -/
def execLdReg (x y : Reg) (s : State) : Result := .next (s.setV x (s.getV y))

/-- OR Vx, Vy: VF is not reset (R123). -/
def execOrReg (x y : Reg) (s : State) : Result := .next (s.setV x (s.getV x ||| s.getV y))

/-- AND Vx, Vy (R124). -/
def execAndReg (x y : Reg) (s : State) : Result := .next (s.setV x (s.getV x &&& s.getV y))

/-- XOR Vx, Vy (R125). -/
def execXorReg (x y : Reg) (s : State) : Result := .next (s.setV x (s.getV x ^^^ s.getV y))

/-- ADD Vx, Vy: the sum is computed before any write, under both settings of `ALIAS_ORDER` (R126, R134). -/
def execAddReg (x y : Reg) (s : State) : Result :=
  .next ((s.setV VF (carryFlag (s.getV x) (s.getV y))).setV x (sumByte (s.getV x) (s.getV y)))

/-- SUB Vx, Vy (R127). -/
def execSubReg (x y : Reg) (s : State) : Result :=
  .next (s.flagThenResult x (greaterFlag (s.getV x) (s.getV y)) fun t => diffByte (t.getV x) (t.getV y))

/-- SHR Vx, or Vx from Vy (R128). -/
def execShrReg (x y : Reg) (s : State) : Result :=
  .next (s.flagThenResult x (lowBitFlag (s.getV (s.shiftSource x y))) fun t => shiftRight1 (t.getV (s.shiftSource x y)))

/-- SUBN Vx, Vy (R129). -/
def execSubnReg (x y : Reg) (s : State) : Result :=
  .next (s.flagThenResult x (greaterFlag (s.getV y) (s.getV x)) fun t => diffByte (t.getV y) (t.getV x))

/-- SHL Vx, or Vx from Vy (R130). -/
def execShlReg (x y : Reg) (s : State) : Result :=
  .next (s.flagThenResult x (highBitFlag (s.getV (s.shiftSource x y))) fun t => shiftLeft1 (t.getV (s.shiftSource x y)))

/-- RND Vx, byte: exactly one draw is consumed, whatever `kk` is (R131). -/
def execRndByte (x : Reg) (kk : Byte) (s : State) : Result := .next (s.drawRandom.setV x (s.rng.nextByte &&& kk))

end Sys2Proof.Machine
end

