-- ==== Sys2Proof/Machine/Control.lean ====
section
/-! DEFINITION. Control transfer: RET, JP, CALL, the four skips and JP V0 (spec 41_control_flow.md). Every handler starts
with `PC = A + 2`. -/

namespace Sys2Proof.Machine

/-- RET: `PC <- Pop()` (R103). -/
def execRet (s : State) : Result := s.conclude (s.pop.map fun r => r.2.setPC r.1)

/-- JP addr: `PC <- zext_16(nnn)` (R104). -/
def execJpAddr (nnn : Addr12) (s : State) : Result := .next (s.setPC (nnn.setWidth 16))

/-- CALL addr: `Push(PC); PC <- zext_16(nnn)` (R105). -/
def execCallAddr (nnn : Addr12) (s : State) : Result :=
  s.conclude ((s.push s.pc).map fun t => t.setPC (nnn.setWidth 16))

/-- SE Vx, byte: `SkipIf(V[x] = kk)` (R106). -/
def execSeByte (x : Reg) (kk : Byte) (s : State) : Result := .next (s.skipIf (s.getV x == kk))

/-- SNE Vx, byte: `SkipIf(V[x] != kk)` (R107). -/
def execSneByte (x : Reg) (kk : Byte) (s : State) : Result := .next (s.skipIf (s.getV x != kk))

/-- SE Vx, Vy: `SkipIf(V[x] = V[y])` (R108). -/
def execSeReg (x y : Reg) (s : State) : Result := .next (s.skipIf (s.getV x == s.getV y))

/-- SNE Vx, Vy: `SkipIf(V[x] != V[y])` (R109). -/
def execSneReg (x y : Reg) (s : State) : Result := .next (s.skipIf (s.getV x != s.getV y))

/-- JP V0, addr: `PC <- (V[0] + nnn) mod 2^16` (R110). -/
def execJpV0 (nnn : Addr12) (s : State) : Result :=
  .next (s.setPC (BitVec.ofNat 16 ((s.getV V0).toNat + nnn.toNat)))

end Sys2Proof.Machine
end

