-- ==== Sys2Proof/Machine/Display.lean ====
section
/-! DEFINITION. Display: CLS and DRW, the only writers of the framebuffer (spec 43_display.md). -/

namespace Sys2Proof.Machine

/-- `FB(c, r)` (R35). -/
def Framebuffer.get (fb : Framebuffer) (c : Fin 64) (r : Fin 32) : Bool := (fb[r.val]'r.isLt)[c.val]'c.isLt

/-- `FB(c, r) <- not FB(c, r)` (R153). -/
def Framebuffer.toggle (fb : Framebuffer) (c : Fin 64) (r : Fin 32) : Framebuffer :=
  fb.set r.val ((fb[r.val]'r.isLt).set c.val (!(fb.get c r)) c.isLt) r.isLt

/-- The cell that column `c` of sprite row `r` meets, wrapped pixel by pixel (R151, R152). -/
def spriteCell (ox oy : Byte) (r c : Nat) : Fin 64 × Fin 32 :=
  (Fin.ofNat 64 (ox.toNat % 64 + c), Fin.ofNat 32 (oy.toNat % 32 + r))

/-- The cells under the set bits of the `n`-row sprite at `I`, drawn at origin `(ox, oy)`: row by row, bit 7 first (R151). -/
def State.spriteCells (s : State) (ox oy : Byte) (n : Nat) : List (Fin 64 × Fin 32) :=
  (List.range n).flatMap fun r =>
    ((List.range 8).filter fun c => (s.readByte (s.i.toNat + r)).getLsbD (7 - c)).map fun c => spriteCell ox oy r c

/-- One set sprite bit: record a collision if its cell is on, then toggle the cell (R153). -/
def plot (acc : Framebuffer × Bool) (cell : Fin 64 × Fin 32) : Framebuffer × Bool :=
  (acc.1.toggle cell.1 cell.2, acc.2 || acc.1.get cell.1 cell.2)

/-- CLS: every cell off (R150). -/
def execCls (s : State) : Result := .next { s with fb := Framebuffer.blank }

/-- The drawing of an `n`-row sprite, every address already checked (R151): the origin is read before VF is reset. -/
def State.drawSprite (s : State) (x y : Reg) (n : Nat) : State :=
  let drawn := (s.spriteCells (s.getV x) (s.getV y) n).foldl plot (s.fb, false)
  { s.setV VF (flagByte drawn.2) with fb := drawn.1 }

/-- DRW Vx, Vy, nibble (R151 to R155). -/
def execDrw (x y : Reg) (n : Nibble) (s : State) : Result :=
  s.conclude ((s.checkRange n.toNat).map fun _ => s.drawSprite x y n.toNat)

end Sys2Proof.Machine
end

