-- ==== Sys2Proof/Machine/IndexMemory.lean ====
section
/-! DEFINITION. Index register, font address, BCD and block transfer (spec 45_index_memory.md). -/

namespace Sys2Proof.Machine

/-- LD I, addr (R180). -/
def execLdI (nnn : Addr12) (s : State) : Result := .next (s.setI (nnn.setWidth 16))

/-- ADD I, Vx: modulo 2^16, no flag (R181). -/
def execAddI (x : Reg) (s : State) : Result :=
  .next (s.setI (BitVec.ofNat 16 (s.i.toNat + (s.getV x).toNat)))

/-- LD F, Vx: `I <- FONT_BASE + 5 * V[x]`, the register not masked (R182). -/
def execLdFont (x : Reg) (s : State) : Result :=
  .next (s.setI (BitVec.ofNat 16 (s.params.fontBase.toNat + 5 * (s.getV x).toNat)))

/-- LD B, Vx: the three decimal digits at `I`, `I+1`, `I+2` (R183). -/
def execLdBcd (x : Reg) (s : State) : Result :=
  s.conclude ((s.checkRange 3).map fun _ => s.writeBytes s.i.toNat (bcdDigits (s.getV x)))

/-- LD [I], Vx: V0 to Vx at `I`, `I+1`, … (R184). -/
def execStoreRegs (x : Reg) (s : State) : Result :=
  s.conclude ((s.checkRange (x.val + 1)).map fun _ => s.writeBytes s.i.toNat ((regsUpTo x).map s.getV))

/-- V0 to Vx loaded from `I`, `I+1`, …, every address already checked (R185). -/
def State.loadBlock (s : State) (x : Reg) : State :=
  (regsUpTo x).foldl (fun t j => t.setV j (s.readByte (s.i.toNat + j.val))) s

/-- LD Vx, [I] (R185). -/
def execLoadRegs (x : Reg) (s : State) : Result :=
  s.conclude ((s.checkRange (x.val + 1)).map fun _ => s.loadBlock x)

end Sys2Proof.Machine
end

