-- ==== Sys2Proof/Machine/KeysTimers.lean ====
section
/-! DEFINITION. Keypad and timer instructions (spec 44_keys_timers.md). The step's timer decrement follows each of them
(40_cycle.md R93). -/

namespace Sys2Proof.Machine

/-- SKP Vx: skip if the key is pressed (R160). -/
def execSkp (x : Reg) (s : State) : Result :=
  s.conclude ((keyIndex (s.getV x)).map fun k => s.skipIf (s.keyPressed k))

/-- SKNP Vx: skip if the key is not pressed (R161). -/
def execSknp (x : Reg) (s : State) : Result :=
  s.conclude ((keyIndex (s.getV x)).map fun k => s.skipIf (!(s.keyPressed k)))

/-- LD Vx, DT: the value before this step's decrement (R162). -/
def execLdRegDT (x : Reg) (s : State) : Result := .next (s.setV x s.dt)

/-- LD Vx, K: the lowest pressed key; with none pressed `PC` goes back to this instruction (R163). -/
def execLdRegK (x : Reg) (s : State) : Result :=
  match s.lowestKey with
  | some k => .next (s.setV x (BitVec.ofNat 8 k.val))
  | none => .next (s.setPC (s.pc - 2))

/-- LD DT, Vx (R164). -/
def execLdDTReg (x : Reg) (s : State) : Result := .next (s.setDT (s.getV x))

/-- LD ST, Vx (R165). -/
def execLdSTReg (x : Reg) (s : State) : Result := .next (s.setST (s.getV x))

end Sys2Proof.Machine
end

