-- ==== Sys2Proof/Machine/Step.lean ====
section
/-! DEFINITION. The step (spec 40_cycle.md R90): halted check, fetch, advance, decode, execute, timers. -/

namespace Sys2Proof.Machine

/-- `Execute(Decode(OPCODE))`: the decoded instruction's rule, or NOP (R92, R94). -/
def execute (d : Decoded) (s : State) : Result :=
  match d with
  | .instr i => exec i s
  | .nop => execNop s

/-- `Step()` (R90). A halted core does nothing (R95). -/
def step (s : State) : Host.Outcome State Fault Refusal :=
  if s.halted then .next s
  else
    match s.badFetch with
    | some a => .next (s.fetchFault a)
    | none => finishResult s (execute (decode s.fetchWord) s.fetched)

/-- `s` with the word of the `nbits` low bits of `w` (the bits above them zero) stored at `PC`, high byte first, where step
fetches next (assumption log 5 says how a program comes to run from reset). -/
def State.withFetchWord (s : State) (nbits w : Nat) : State :=
  s.writeBytes s.pc.toNat (bytesOfWord (BitVec.ofNat 16 (w % 2 ^ nbits)))

end Sys2Proof.Machine
end

