-- ==== Sys2Proof/Machine/Ports.lean ====
section
/-! DEFINITION. The host interface (spec 60_exceptions.md R212 to R219): every port as an operation between steps, and a
session of calls in the order R219 asks for. -/

namespace Sys2Proof.Machine

/-- `Init(seed)` for a machine with parameters `p`; a test harness may fix the draws to come (R40, R213). -/
def portInit (p : Params) (seed : Nat) (forced : List Byte) : State :=
  State.initial p { seed := seed, drawn := 0, forced := forced }

/-- Why a port refuses a call. These are host errors: none is a core fault and none sets `FAULT_CAUSE` (R214, R215). -/
inductive PortError where
  /-- The program's source cannot be read (R67, R214). -/
  | loadIO
  /-- The image is longer than 3584 bytes (R67, R214). -/
  | loadTooLarge
  /-- `SetKey` with an index outside 0..15 (R215). -/
  | keyIndexOutside
  /-- The call is not allowed at this point of the session (R219). -/
  | notNow
  deriving DecidableEq, Repr

/-- `Load(P)`: the image copied verbatim to `ENTRY` upward, or an error and memory left as it was (R67, R214). `none` is a
source that cannot be read. -/
def portLoad (image : Option (List Byte)) (s : State) : Except PortError State :=
  match image with
  | none => .error .loadIO
  | some bytes => if imageWellFormed bytes then .ok (s.writeBytes entry.toNat bytes) else .error .loadTooLarge

/-- `SetKey(k, pressed)` (R215). -/
def portSetKey (k : Nat) (pressed : Bool) (s : State) : Except PortError State :=
  if h : k < 16 then .ok { s with keys := s.keys.set k pressed h } else .error .keyIndexOutside

/-- `ReadTimers()` (R216). No phase gates the reading ports: what they show before the first `Init` is the model's (log 14). -/
def portReadTimers (s : State) : Byte × Byte := (s.dt, s.st)

/-- `ReadFault()` (R217), not gated by phase (log 14). -/
def portReadFault (s : State) : FaultStatus := s.fault

/-- `ReadFB()` for a presenter whose cells are `w` bits wide: cell `(c, r)` at index `r * 64 + c`, on as the all-ones word
`PIXEL_ON`, off as 0 (R218); not gated by phase (log 14). -/
def portReadFB (w : Nat) (s : State) : List (BitVec w) :=
  (List.finRange 32).flatMap fun r =>
    (List.finRange 64).map fun c => if s.fb.get c r then BitVec.allOnes w else 0

/-- Where a session stands (R219, R233). -/
inductive Phase where
  /-- Not yet initialised. -/
  | fresh
  /-- After `Init`, before `Load`. -/
  | initialised
  /-- A load error, fatal to startup (R214). -/
  | startupFailed
  /-- After `Load`: stepping is allowed, loading is not. -/
  | loaded
  deriving DecidableEq, Repr

/-- A host's session with the core. -/
structure Session where
  phase : Phase
  core : State
  deriving DecidableEq, Repr

/-- A session before its first `Init`. The spec gives no state before construction, so what the core holds here is a DESIGN
CHOICE (log 14): an initialised core with seed 0. Step, Load and SetKey are refused on it; only `Init` acts, and discards it. -/
def Session.start (p : Params) : Session := { phase := .fresh, core := portInit p 0 [] }

/-- The calls that change the core. The reading ports have no side effect (R216, R217). -/
inductive HostCall where
  | init (seed : Nat) (forced : List Byte)
  | load (image : Option (List Byte))
  | setKey (k : Nat) (pressed : Bool)
  | step
  deriving DecidableEq, Repr

/-- The core after a step's outcome; a step always answers a next state, so the other two cases do not occur. -/
def coreAfter (s : State) : Result → State
  | .next t => t
  | .fault _ => s
  | .refused _ => s

/-- One call of the host, between steps, and the error the port surfaces, if any (R219). `Init` is allowed at any time and
discards everything (70_reset_and_hazards.md R232); the parameters belong to the machine and stay (log 10). -/
def Session.call (h : Session) : HostCall → Session × Option PortError
  | .init seed forced => ({ phase := .initialised, core := portInit h.core.params seed forced }, none)
  | .load image =>
    if h.phase = .initialised then
      match portLoad image h.core with
      | .ok t => ({ phase := .loaded, core := t }, none)
      | .error e => ({ h with phase := .startupFailed }, some e)
    else (h, some .notNow)
  | .setKey k pressed =>
    if h.phase = .initialised ∨ h.phase = .loaded then
      match portSetKey k pressed h.core with
      | .ok t => ({ h with core := t }, none)
      | .error e => (h, some e)
    else (h, some .notNow)
  | .step =>
    if h.phase = .loaded then ({ h with core := coreAfter h.core (Sys2Proof.Machine.step h.core) }, none)
    else (h, some .notNow)

end Sys2Proof.Machine
end

