-- ==== Sys2Proof/Safety.lean ====
section
/-! DEFINITION. The terms claims are stated in: the invariant of the machine, when a step faults, and what leaves memory
alone. -/

namespace Sys2Proof.Machine

/-- Every byte of memory reads the same in both states. -/
def SameMemory (s t : State) : Prop := ∀ a, t.readByte a = s.readByte a

/-- Every byte of memory outside the `len` bytes at `base` reads the same in both states. -/
def SameMemoryOutside (base len : Nat) (s t : State) : Prop :=
  ∀ a, ¬ (base ≤ a ∧ a < base + len) → t.readByte a = s.readByte a

/-- The fault status registers hold what R32 and R201 allow: a running core has all four at 0, and a halted one a cause
code of R201. -/
def FaultStatus.Legal (f : FaultStatus) : Prop := f = FaultStatus.none ∨ (1 ≤ f.cause.toNat ∧ f.cause.toNat ≤ 5)

/-- The machine's invariant: memory is in canonical form, the parameters meet R10, the fault status is legal, `PC` and the
return addresses are bounded as R26 says (a handler sees `PC <= 0x1000`, and nothing writes a `PC` above 0x10FE). -/
structure State.Inv (s : State) : Prop where
  memory : Memory.wf s.params s.mem
  params : s.params.WellFormed
  fault : s.fault.Legal
  pc : s.pc.toNat ≤ 0x10FE
  stack : ∀ j : Fin 16, (s.stack[j.val]'j.isLt).toNat ≤ 0x1000

/-- What an instruction, executed from the handler's state `s`, raises: the cause and the value for `FAULT_ADDR` that R201
gives, or nothing. -/
def State.raises (s : State) : Instr → Option Raise
  | .ret => if s.sp.val = 0 then some ⟨.stackUnderflow, 0⟩ else none
  | .callAddr _ => if s.sp.val = 16 then some ⟨.stackOverflow, 0⟩ else none
  | .skp x | .sknp x =>
    if (s.getV x).toNat > 0xF then some ⟨.keyRange, BitVec.ofNat 17 (s.getV x).toNat⟩ else none
  | .drw _ _ n =>
    if n.toNat ≠ 0 ∧ s.i.toNat + n.toNat > 0x1000 then some ⟨.memRange, BitVec.ofNat 17 (max s.i.toNat 0x1000)⟩ else none
  | .ldBcd _ =>
    if s.i.toNat + 3 > 0x1000 then some ⟨.memRange, BitVec.ofNat 17 (max s.i.toNat 0x1000)⟩ else none
  | .storeRegs x | .loadRegs x =>
    if s.i.toNat + x.val + 1 > 0x1000 then some ⟨.memRange, BitVec.ofNat 17 (max s.i.toNat 0x1000)⟩ else none
  | _ => none

/-- The registers an instruction may write (R23): its destination, and VF where it writes a flag. -/
def destRegs : Instr → List Reg
  | .ldByte x _ | .addByte x _ | .ldReg x _ | .orReg x _ | .andReg x _ | .xorReg x _ | .rndByte x _ | .ldRegDT x
  | .ldRegK x => [x]
  | .addReg x _ | .subReg x _ | .shrReg x _ | .subnReg x _ | .shlReg x _ => [VF, x]
  | .drw _ _ _ => [VF]
  | .loadRegs x => (List.finRange 16).filter (· ≤ x)
  | _ => []

/-- How many bytes from `I` on an instruction stores (R53); 0 for one that stores nothing. -/
def storedBytes : Instr → Nat
  | .ldBcd _ => 3
  | .storeRegs x => x.val + 1
  | _ => 0

/-- R25's table: what `PC` holds after a step from `s` that ran `d` and did not fault; `A` is the fetch address `s.pc`. -/
def State.pcAfter (s : State) : Decoded → Word
  | .instr (.jpAddr nnn) | .instr (.callAddr nnn) => BitVec.ofNat 16 nnn.toNat
  | .instr (.jpV0 nnn) => BitVec.ofNat 16 ((s.getV V0).toNat + nnn.toNat)
  | .instr .ret => s.stack[s.sp.val - 1]'(by omega)
  | .instr (.seByte x kk) => if s.getV x = kk then s.pc + 4 else s.pc + 2
  | .instr (.sneByte x kk) => if s.getV x ≠ kk then s.pc + 4 else s.pc + 2
  | .instr (.seReg x y) => if s.getV x = s.getV y then s.pc + 4 else s.pc + 2
  | .instr (.sneReg x y) => if s.getV x ≠ s.getV y then s.pc + 4 else s.pc + 2
  | .instr (.skp x) => if s.keys[(s.getV x).toNat]? = some true then s.pc + 4 else s.pc + 2
  | .instr (.sknp x) => if s.keys[(s.getV x).toNat]? = some false then s.pc + 4 else s.pc + 2
  | .instr (.ldRegK _) => if ∃ k, s.keyPressed k = true then s.pc + 2 else s.pc
  | _ => s.pc + 2

/-- Whether the `n`-row sprite at `I`, drawn from `(V[x], V[y])`, has a set bit over cell `(c, r)`: the cell's distance from
the origin, wrapped, is inside the sprite, and the bit there is set (R151, R152, R154). -/
def State.spriteLit (s : State) (x y : Reg) (n : Nibble) (c : Fin 64) (r : Fin 32) : Bool :=
  let dc := (c.val + 64 - (s.getV x).toNat % 64) % 64
  let dr := (r.val + 32 - (s.getV y).toNat % 32) % 32
  decide (dr < n.toNat) && decide (dc < 8) && (s.readByte (s.i.toNat + dr)).getLsbD (7 - dc)

/-- A safe state: the core is running and its next step does not halt it. -/
def State.StepsSafely (s : State) : Prop :=
  s.halted = false ∧ s.badFetch = none ∧ ∀ i, decode s.fetchWord = .instr i → s.fetched.raises i = none

end Sys2Proof.Machine
end

