-- ==== Sys2Proof/Certificates/Slice0/Obligations.lean ====
section
/-! DEFINITION. The statements for the provers. `s` in a statement about `exec` is the state a handler starts with (spec
40_cycle.md R91): `s.pc` is `A + 2` and `s.opcode` the fetched word, `A` being the fetch address. `{ t with f := s.f } = s`
says that nothing but the field `f` changed. Where a rule is the spec's own decision (92_eei_decisions.md) the docstring
names it. -/

open Sys2Proof Sys2Proof.Machine

/-! ### Encoding -/

/-- R70, R72, R77 to R79: decode reads every instruction back from its standard word, and a word decodes to an instruction
exactly when it agrees with that word on the bits R72 does not mark "-". -/
def Obligations.DecodeReadsExactlyExaminedBits : Prop :=
  (∀ i, decode (encode i) = .instr i) ∧
  ∀ i w, decode w = .instr i ↔ w &&& examinedBits i = encode i &&& examinedBits i

/-- R83 (its numbers are the spec's general knowledge, assumption log 8): the rows are mutually exclusive, decode answers an
instruction only for a word that selects its row, and a word no row matches is NOP. -/
def Obligations.OpcodeRowsSelectDecode : Prop :=
  (opcodeRows.Pairwise fun a b => ∀ w : Word, ¬ (a.selectedBy w ∧ b.selectedBy w)) ∧
  (∀ w i, decode w = .instr i → opcodeRow i ∈ opcodeRows ∧ (opcodeRow i).selectedBy w) ∧
  (∀ w, decode w = .nop ↔ ∀ row ∈ opcodeRows, ¬ row.selectedBy w)

/-- R83 (assumption log 8): a few words written out from the table decode to the instructions they stand for. -/
def Obligations.SpecWordsDecodeAsWritten : Prop :=
  decode 0x00E0 = .instr .cls ∧ decode 0x1234 = .instr (.jpAddr 0x234) ∧ decode 0x8126 = .instr (.shrReg 1 2) ∧
  decode 0xDAB5 = .instr (.drw 10 11 5) ∧ decode 0xF333 = .instr (.ldBcd 3) ∧ decode 0xE50E = .instr (.skp 5) ∧
  decode 0x512F = .instr (.seReg 1 2) ∧ decode 0x8008 = .nop

/-! ### The step -/

/-- R90 to R93: a running core whose fetch is in range and whose word decodes to `i` runs `exec i` on the state with OPCODE
loaded and PC advanced by 2; if the handler's state is not halted the timers count, otherwise only the fault status of
that state is kept. -/
def Obligations.StepRunsDecodedInstruction : Prop :=
  ∀ (s t : State) (i : Instr), s.fault.cause = 0 → s.pc.toNat ≤ 0xFFE → decode s.fetchWord = .instr i →
    exec i { s with opcode := s.fetchWord, pc := s.pc + 2 } = .next t →
    step s = .next (if t.fault.cause = 0 then { t with dt := tickTimer t.dt, st := tickTimer t.st }
      else { s with fault := t.fault })

/-- R76, R94: a word that selects no row executes as NOP: the step fetches, advances `PC` by 2 and decrements the timers,
nothing else changes, and nothing traps, faults or halts. -/
def Obligations.UnmappedWordIsNop : Prop :=
  ∀ s : State, s.fault.cause = 0 → s.pc.toNat ≤ 0xFFE → (∀ row ∈ opcodeRows, ¬ row.selectedBy s.fetchWord) →
    ∃ t, step s = .next t ∧ t.pc = s.pc + 2 ∧ t.opcode = s.fetchWord ∧
      t.dt.toNat = s.dt.toNat - 1 ∧ t.st.toNat = s.st.toNat - 1 ∧
      { t with pc := s.pc, opcode := s.opcode, dt := s.dt, st := s.st } = s

/-- R51: the fetch loads OPCODE from the two bytes at PC, the byte at the lower address as bits 15..8. -/
def Obligations.FetchIsBigEndian : Prop :=
  (∀ s : State, s.fetchWord.toNat = 256 * (s.readByte s.pc.toNat).toNat + (s.readByte (s.pc.toNat + 1)).toNat) ∧
  ∀ s t : State, s.fault.cause = 0 → step s = .next t → t.fault.cause = 0 → t.opcode = s.fetchWord

/-- R95 (the spec's decision D10): once a step has faulted, every later step changes nothing, and of the host's calls only
initialisation clears the fault. -/
def Obligations.HaltedCoreStaysHalted : Prop :=
  (∀ (s : State) (k : Nat), s.fault.cause ≠ 0 → core.run k s = .next s) ∧
  (∀ (h : Session) (c : HostCall), h.core.fault.cause ≠ 0 → (∀ seed forced, c ≠ .init seed forced) →
    (h.call c).1.core.fault = h.core.fault) ∧
  ∀ (h : Session) (seed : Nat) (forced : List Byte), (h.call (.init seed forced)).1.core.fault.cause = 0

/-- R55 (the spec's decisions D5, D6, D10): a fetch needs `PC <= 0xFFE`, otherwise FETCH_RANGE with the first bad address;
an instruction whose effective addresses reach above 0xFFF raises MEM_RANGE with the first bad one, at its own address, and
writes nothing; one whose addresses are all at most 0xFFF raises nothing. -/
def Obligations.RangeChecksPrecedeEveryWrite : Prop :=
  (∀ s : State, s.fault.cause = 0 → s.pc.toNat > 0xFFE →
    step s = .next { s with
      fault := { cause := 1, pc := s.pc, opcode := 0, addr := BitVec.ofNat 17 (max s.pc.toNat 0x1000) } }) ∧
  ∀ (s : State) (i : Instr) (len : Nat),
    ((∃ x y n, i = .drw x y n ∧ len = n.toNat) ∨ (∃ x, i = .ldBcd x ∧ len = 3) ∨
      (∃ x, i = .storeRegs x ∧ len = x.val + 1) ∨ (∃ x, i = .loadRegs x ∧ len = x.val + 1)) →
    (∀ j < len, s.i.toNat + j > 0xFFF → (∀ m < j, s.i.toNat + m ≤ 0xFFF) →
      exec i s = .next { s with
        pc := s.pc - 2,
        fault := { cause := 2, pc := s.pc - 2, opcode := s.opcode, addr := BitVec.ofNat 17 (s.i.toNat + j) } }) ∧
    ((∀ j < len, s.i.toNat + j ≤ 0xFFF) → ∃ t, exec i s = .next t ∧ t.fault = s.fault)

/-- R98, R200 (the spec's decision D10): a step that faults commits nothing but the fault status, which holds the fetch
address and the fetched word, or 0 for a fetch fault; PC still holds the fetch address. -/
def Obligations.FaultingStepCommitsNothing : Prop :=
  ∀ s t : State, s.fault.cause = 0 → step s = .next t → t.fault.cause ≠ 0 →
    t = { s with fault := t.fault } ∧ t.fault.pc = s.pc ∧
    t.fault.opcode = if s.pc.toNat > 0xFFE then 0 else s.fetchWord

/-- R200, R201, R202 (the spec's decisions D5 to D10): a step of a running core raises FETCH_RANGE exactly when its fetch is
out of range; otherwise it faults exactly when its instruction raises what R201's table gives for it; either way the four
status registers hold the cause, the fetch address, the word (0 for a fetch fault) and the table's FAULT_ADDR, and all other
state is as before. NOP never faults, and a state that steps safely steps to a running one. -/
def Obligations.StepFaultsExactlyAsTableSays : Prop :=
  (∀ s : State, s.fault.cause = 0 → s.pc.toNat > 0xFFE →
    step s = .next { s with
      fault := { cause := 1, pc := s.pc, opcode := 0, addr := BitVec.ofNat 17 (max s.pc.toNat 0x1000) } }) ∧
  (∀ (s : State) (i : Instr), s.fault.cause = 0 → s.pc.toNat ≤ 0xFFE → decode s.fetchWord = .instr i →
    (∀ r, s.raises i = some r →
      step s = .next { s with
        fault := { cause := r.cause.code, pc := s.pc, opcode := s.fetchWord, addr := r.info } }) ∧
    (s.raises i = none → ∃ t, step s = .next t ∧ t.fault.cause = 0)) ∧
  (∀ s : State, s.fault.cause = 0 → s.pc.toNat ≤ 0xFFE → decode s.fetchWord = .nop →
    ∃ t, step s = .next t ∧ t.fault.cause = 0) ∧
  ∀ s : State, s.StepsSafely → ∃ t, step s = .next t ∧ t.fault.cause = 0

/-- R92, R96: decode never fails and a step always completes: every step answers a next state. -/
def Obligations.EveryStepAnswersNextState : Prop :=
  (∀ (i : Instr) (s : State), ∃ t, exec i s = .next t) ∧ ∀ s : State, ∃ t, step s = .next t

/-- R93, R241: every step that does not fault decrements `DT` by 1 if it is above 0, after the handler, and `ST` likewise,
whatever instruction ran; an Fx15 or Fx18 of the same step sets the value that is decremented. -/
def Obligations.TimersCountEveryStep : Prop :=
  ∀ s t : State, s.fault.cause = 0 → step s = .next t → t.fault.cause = 0 →
    (t.dt.toNat = (match decode s.fetchWord with
      | .instr (.ldDTReg x) => (s.getV x).toNat
      | _ => s.dt.toNat) - 1) ∧
    (t.st.toNat = (match decode s.fetchWord with
      | .instr (.ldSTReg x) => (s.getV x).toNat
      | _ => s.st.toNat) - 1)

/-- R25 (which the spec derives from R24 and the instruction rules): how each instruction leaves PC. -/
def Obligations.ProgramCounterAfterStep : Prop :=
  ∀ s t : State, s.fault.cause = 0 → step s = .next t → t.fault.cause = 0 → t.pc = s.pcAfter (decode s.fetchWord)

/-- R23, R28, R29, R30, R31, R35, R37, R53: which state each instruction may change, and that it changes nothing else: the
frame of every instruction. -/
def Obligations.EveryInstructionKeepsItsFrame : Prop :=
  ∀ (i : Instr) (s t : State), Memory.wf s.params s.mem → exec i s = .next t →
    (∀ r, r ∉ destRegs i → t.getV r = s.getV r) ∧
    ((∀ nnn, i ≠ .ldI nnn) → (∀ x, i ≠ .addI x) → (∀ x, i ≠ .ldFont x) → t.i = s.i) ∧
    ((∀ nnn, i ≠ .callAddr nnn) → t.stack = s.stack ∧ (i ≠ .ret → t.sp = s.sp)) ∧
    ((∀ x, i ≠ .ldDTReg x) → t.dt = s.dt) ∧
    ((∀ x, i ≠ .ldSTReg x) → t.st = s.st) ∧
    (s.i.toNat + storedBytes i ≤ 0x1000 → SameMemoryOutside s.i.toNat (storedBytes i) s t) ∧
    (s.i.toNat + storedBytes i > 0x1000 → SameMemory s t) ∧
    (i ≠ .cls → (∀ x y n, i ≠ .drw x y n) → t.fb = s.fb) ∧
    ((∀ x kk, i ≠ .rndByte x kk) → t.rng = s.rng) ∧
    (s.raises i = none → t.fault = s.fault) ∧
    t.keys = s.keys ∧ t.opcode = s.opcode ∧ t.params = s.params

/-- R26, R30, R32, R57: every step keeps the invariant, from every state that meets it: memory in canonical form, the
parameters as R10 asks, the fault status legal, `PC` at most 0x10FE and every return address at most 0x1000. -/
def Obligations.StepKeepsInvariant : Prop :=
  ∀ s t : State, s.Inv → step s = .next t → t.Inv

/-- The state after reset meets the invariant, and so does the state `Init` leaves on every machine whose parameters are as
R10 asks. -/
def Obligations.InitialStateMeetsInvariant : Prop :=
  State.reset.Inv ∧ ∀ (p : Params) (seed : Nat) (forced : List Byte), p.WellFormed → (portInit p seed forced).Inv

/-- R97: the next state depends on the byte source only through the one byte that Cxkk draws. -/
def Obligations.StepDependsOnDrawOnlyInRnd : Prop :=
  ∀ (s t : State) (g : Rng), s.fault.cause = 0 → s.pc.toNat ≤ 0xFFE → step s = .next t →
    ((∀ x kk, decode s.fetchWord ≠ .instr (.rndByte x kk)) → step { s with rng := g } = .next { t with rng := g }) ∧
    (∀ x kk, decode s.fetchWord = .instr (.rndByte x kk) → g.nextByte = s.rng.nextByte →
      step { s with rng := g } = .next { t with rng := g.advance })

/-- R31, R165: no instruction reads `ST`. -/
def Obligations.SoundTimerIsNeverRead : Prop :=
  ∀ (i : Instr) (s t : State) (b : Byte), exec i s = .next t →
    exec i { s with st := b } = .next (match i with
      | .ldSTReg _ => t
      | _ => { t with st := b })

/-! ### Control transfer -/

/-- R102, R103 (underflow is the spec's decision D8): RET pops the return address into PC, the slot keeps its contents and
nothing else changes; on an empty stack the step commits nothing and raises STACK_UNDERFLOW. -/
def Obligations.ReturnPopsIntoProgramCounter : Prop :=
  (∀ s : State, s.sp.val ≠ 0 →
    ∃ t, exec .ret s = .next t ∧ t.sp.val = s.sp.val - 1 ∧ some t.pc = s.stack[s.sp.val - 1]? ∧
      { t with sp := s.sp, pc := s.pc } = s) ∧
  (∀ s : State, s.fault.cause = 0 → s.pc.toNat ≤ 0xFFE → decode s.fetchWord = .instr .ret → s.sp.val = 0 →
    step s = .next { s with fault := { cause := 4, pc := s.pc, opcode := s.fetchWord, addr := 0 } })

/-- R104: JP sets PC to `nnn` and changes nothing else; a fetch at 0xFFF then faults with FETCH_RANGE at 0x1000. -/
def Obligations.JumpSetsProgramCounter : Prop :=
  (∀ (s : State) (nnn : Addr12),
    ∃ t, exec (.jpAddr nnn) s = .next t ∧ t.pc.toNat = nnn.toNat ∧ { t with pc := s.pc } = s) ∧
  ∀ s : State, s.fault.cause = 0 → s.pc.toNat = 0xFFF →
    step s = .next { s with fault := { cause := 1, pc := 0xFFF, opcode := 0, addr := 0x1000 } }

/-- R100, R105 (overflow is the spec's decision D7): CALL pushes the address of the instruction after it and jumps; the
other slots and everything else stay; with 16 addresses on the stack the step commits nothing and raises STACK_OVERFLOW. -/
def Obligations.CallPushesReturnAddress : Prop :=
  (∀ (s : State) (nnn : Addr12), s.sp.val < 16 →
    ∃ t, exec (.callAddr nnn) s = .next t ∧ t.pc.toNat = nnn.toNat ∧ t.sp.val = s.sp.val + 1 ∧
      t.stack[s.sp.val]? = some s.pc ∧ (∀ j, j ≠ s.sp.val → t.stack[j]? = s.stack[j]?) ∧
      { t with pc := s.pc, sp := s.sp, stack := s.stack } = s) ∧
  (∀ (s : State) (nnn : Addr12), s.fault.cause = 0 → s.pc.toNat ≤ 0xFFE → decode s.fetchWord = .instr (.callAddr nnn) →
    s.sp.val = 16 →
    step s = .next { s with fault := { cause := 3, pc := s.pc, opcode := s.fetchWord, addr := 0 } })

/-- R24, R102, R105: a RET executed with the stack a CALL left goes to the instruction after the CALL and restores SP. -/
def Obligations.ReturnUndoesCall : Prop :=
  ∀ (s t u : State) (nnn : Addr12), s.sp.val < 16 → exec (.callAddr nnn) s = .next t → u.sp = t.sp → u.stack = t.stack →
    ∃ w, exec .ret u = .next w ∧ w.pc = s.pc ∧ w.sp = s.sp

/-- R101, R106 to R109: each skip advances PC by an extra 2 exactly when its condition holds, and changes nothing else. -/
def Obligations.SkipsTestRegisters : Prop :=
  ∀ (s : State) (x y : Reg) (kk : Byte),
    (∃ t, exec (.seByte x kk) s = .next t ∧ { t with pc := s.pc } = s ∧
      t.pc = if s.getV x = kk then s.pc + 2 else s.pc) ∧
    (∃ t, exec (.sneByte x kk) s = .next t ∧ { t with pc := s.pc } = s ∧
      t.pc = if s.getV x ≠ kk then s.pc + 2 else s.pc) ∧
    (∃ t, exec (.seReg x y) s = .next t ∧ { t with pc := s.pc } = s ∧
      t.pc = if s.getV x = s.getV y then s.pc + 2 else s.pc) ∧
    (∃ t, exec (.sneReg x y) s = .next t ∧ { t with pc := s.pc } = s ∧
      t.pc = if s.getV x ≠ s.getV y then s.pc + 2 else s.pc)

/-- R110: JP V0 sets PC to the exact sum of V0 and `nnn`, at most 0x10FE, and changes nothing else. -/
def Obligations.JumpWithOffsetAddsExactly : Prop :=
  ∀ (s : State) (nnn : Addr12),
    ∃ t, exec (.jpV0 nnn) s = .next t ∧ t.pc.toNat = (s.getV 0).toNat + nnn.toNat ∧ t.pc.toNat ≤ 0x10FE ∧
      { t with pc := s.pc } = s

/-! ### Register loads, arithmetic, logic, shifts, random -/

/-- R120, R122 to R125: the loads and the bitwise operations write Vx alone, VF included when x = 0xF; with x = y the copy,
OR and AND change nothing and XOR gives 0. -/
def Obligations.LoadsAndLogicWriteDestination : Prop :=
  (∀ (s : State) (x y : Reg) (kk : Byte),
    (∃ t, exec (.ldByte x kk) s = .next t ∧ { t with v := s.v } = s ∧
      ∀ q, t.getV q = if q = x then kk else s.getV q) ∧
    (∃ t, exec (.ldReg x y) s = .next t ∧ { t with v := s.v } = s ∧
      ∀ q, t.getV q = if q = x then s.getV y else s.getV q) ∧
    (∃ t, exec (.orReg x y) s = .next t ∧ { t with v := s.v } = s ∧
      ∀ q, t.getV q = if q = x then s.getV x ||| s.getV y else s.getV q) ∧
    (∃ t, exec (.andReg x y) s = .next t ∧ { t with v := s.v } = s ∧
      ∀ q, t.getV q = if q = x then s.getV x &&& s.getV y else s.getV q) ∧
    (∃ t, exec (.xorReg x y) s = .next t ∧ { t with v := s.v } = s ∧
      ∀ q, t.getV q = if q = x then s.getV x ^^^ s.getV y else s.getV q)) ∧
  ∀ (s : State) (x : Reg),
    exec (.ldReg x x) s = .next s ∧ exec (.orReg x x) s = .next s ∧ exec (.andReg x x) s = .next s ∧
    ∃ t, exec (.xorReg x x) s = .next t ∧ t.getV x = 0

/-- R121: ADD immediate wraps modulo 256 and writes Vx alone; VF is not written as a flag. -/
def Obligations.AddImmediateWrapsWithoutFlag : Prop :=
  ∀ (s : State) (x : Reg) (kk : Byte),
    ∃ t, exec (.addByte x kk) s = .next t ∧ { t with v := s.v } = s ∧
      (t.getV x).toNat = ((s.getV x).toNat + kk.toNat) % 256 ∧ ∀ q, q ≠ x → t.getV q = s.getV q

/-- R126: ADD writes VF with the carry of the sum computed before any write, then Vx with the sum's low 8 bits, so with
x = 0xF the carry is lost; the same under both settings of ALIAS_ORDER. -/
def Obligations.AddRegistersSetsCarry : Prop :=
  ∀ (s : State) (x y : Reg),
    ∃ t, exec (.addReg x y) s = .next t ∧ { t with v := s.v } = s ∧
      (t.getV x).toNat = ((s.getV x).toNat + (s.getV y).toNat) % 256 ∧
      (x ≠ 15 → t.getV 15 = if (s.getV x).toNat + (s.getV y).toNat > 255 then 1 else 0) ∧
      ∀ q, q ≠ x → q ≠ 15 → t.getV q = s.getV q

/-- R127, R133, R134 (the spec's decision D11): SUB writes VF with the strict `Vx > Vy`, then Vx with the wrapped
difference; under `sequential` an operand that is VF reads the flag just written. -/
def Obligations.SubtractSetsStrictFlag : Prop :=
  ∀ (s : State) (x y : Reg) (f a b : Byte),
    f = (if (s.getV x).toNat > (s.getV y).toNat then 1 else 0) →
    a = (if s.params.aliasOrder = .sequential ∧ x = 15 then f else s.getV x) →
    b = (if s.params.aliasOrder = .sequential ∧ y = 15 then f else s.getV y) →
    ∃ t, exec (.subReg x y) s = .next t ∧ { t with v := s.v } = s ∧
      (t.getV x).toNat = (a.toNat + 256 - b.toNat) % 256 ∧ (x ≠ 15 → t.getV 15 = f) ∧
      ∀ q, q ≠ x → q ≠ 15 → t.getV q = s.getV q

/-- R129, R133, R134 (the spec's decision D11): SUBN is SUB with the operands exchanged. -/
def Obligations.ReverseSubtractSetsStrictFlag : Prop :=
  ∀ (s : State) (x y : Reg) (f a b : Byte),
    f = (if (s.getV y).toNat > (s.getV x).toNat then 1 else 0) →
    a = (if s.params.aliasOrder = .sequential ∧ x = 15 then f else s.getV x) →
    b = (if s.params.aliasOrder = .sequential ∧ y = 15 then f else s.getV y) →
    ∃ t, exec (.subnReg x y) s = .next t ∧ { t with v := s.v } = s ∧
      (t.getV x).toNat = (b.toNat + 256 - a.toNat) % 256 ∧ (x ≠ 15 → t.getV 15 = f) ∧
      ∀ q, q ≠ x → q ≠ 15 → t.getV q = s.getV q

/-- R128, R130, R134 (the spec's decisions D11, D12): a shift writes VF with the bit shifted out of the source before the
shift, then Vx with the shifted source, the source being Vx or Vy by SHIFT_SOURCE; under `sequential` a source that is VF is
read after the flag write. -/
def Obligations.ShiftsSetShiftedOutBit : Prop :=
  ∀ (s : State) (x y src : Reg) (lo hi : Byte),
    src = (if s.params.shiftSource = .vx then x else y) →
    lo = BitVec.ofNat 8 ((s.getV src).toNat % 2) → hi = BitVec.ofNat 8 ((s.getV src).toNat / 128) →
    (∃ t, exec (.shrReg x y) s = .next t ∧ { t with v := s.v } = s ∧
      (t.getV x).toNat =
        (if s.params.aliasOrder = .sequential ∧ src = 15 then lo else s.getV src).toNat / 2 ∧
      (x ≠ 15 → t.getV 15 = lo) ∧ ∀ q, q ≠ x → q ≠ 15 → t.getV q = s.getV q) ∧
    (∃ t, exec (.shlReg x y) s = .next t ∧ { t with v := s.v } = s ∧
      (t.getV x).toNat =
        (if s.params.aliasOrder = .sequential ∧ src = 15 then hi else s.getV src).toNat * 2 % 256 ∧
      (x ≠ 15 → t.getV 15 = hi) ∧ ∀ q, q ≠ x → q ≠ 15 → t.getV q = s.getV q)

/-- R131, R40 (the spec's decision D17): RND writes Vx with the drawn byte AND `kk` and consumes exactly one draw, whatever
`kk` is; every byte can be the one drawn. The drawn byte is a free value (assumption log 2), and the clauses on `drawn`, `seed`
and `forced` are about the model's own fields of the byte source, a choice of the model (assumption log 3). -/
def Obligations.RandomConsumesOneDraw : Prop :=
  (∀ (s : State) (x : Reg) (kk : Byte),
    ∃ t, exec (.rndByte x kk) s = .next t ∧ { t with v := s.v, rng := s.rng } = s ∧
      t.getV x = s.rng.nextByte &&& kk ∧ (∀ q, q ≠ x → t.getV q = s.getV q) ∧
      t.rng.drawn = s.rng.drawn + 1 ∧ t.rng.seed = s.rng.seed ∧ t.rng.forced = s.rng.forced.drop 1) ∧
  ∀ (s : State) (x : Reg) (kk b : Byte),
    ∃ g t, exec (.rndByte x kk) { s with rng := g } = .next t ∧ t.getV x = b &&& kk

/-! ### Display -/

/-- R150: CLS turns every cell off whatever it was, and changes nothing else. -/
def Obligations.ClearScreenTurnsEveryCellOff : Prop :=
  ∀ s : State, ∃ t, exec .cls s = .next t ∧ (∀ c r, t.fb.get c r = false) ∧ { t with fb := s.fb } = s

/-- R151 to R155 (the spec's decisions D5, D13; R154, that the result is the old framebuffer XOR the wrapped sprite image, is
a rule the spec derives from R151): a draw whose sprite lies in memory leaves that framebuffer, the sprite wrapped pixel by
pixel around the origin (Vx, Vy) read before VF is reset, VF is 1 exactly when a set sprite bit met a cell that was on, and
nothing else changes; `n = 0` draws nothing and still resets VF; a sprite that reaches above 0xFFF raises MEM_RANGE with the
first bad address and draws nothing. -/
def Obligations.DrawXorsWrappedSprite : Prop :=
  (∀ (s : State) (x y : Reg) (n : Nibble), (n = 0 ∨ s.i.toNat + n.toNat ≤ 0x1000) →
    ∃ t, exec (.drw x y n) s = .next t ∧
      (∀ c r, t.fb.get c r = (s.fb.get c r ^^ s.spriteLit x y n c r)) ∧
      (t.getV 15 = if ∃ c r, s.fb.get c r = true ∧ s.spriteLit x y n c r = true then 1 else 0) ∧
      (∀ q, q ≠ 15 → t.getV q = s.getV q) ∧ { t with v := s.v, fb := s.fb } = s) ∧
  ∀ (s : State) (x y : Reg) (n : Nibble), n ≠ 0 → s.i.toNat + n.toNat > 0x1000 →
    exec (.drw x y n) s = .next { s with
      pc := s.pc - 2,
      fault := { cause := 2, pc := s.pc - 2, opcode := s.opcode, addr := BitVec.ofNat 17 (max s.i.toNat 0x1000) } }

/-- R153, R154: drawing the same sprite again at the same place, from registers other than VF, restores the framebuffer. -/
def Obligations.DrawTwiceRestoresFramebuffer : Prop :=
  ∀ (s t : State) (x y : Reg) (n : Nibble), x ≠ 15 → y ≠ 15 → (n = 0 ∨ s.i.toNat + n.toNat ≤ 0x1000) →
    exec (.drw x y n) s = .next t → ∃ u, exec (.drw x y n) t = .next u ∧ u.fb = s.fb

/-! ### Keypad and timers -/

/-- R159, R160, R161 (the index check is the spec's decision D9): SKP and SKNP test the key named by Vx and change PC alone;
an index above 0xF raises KEY_RANGE with that value, and the step commits nothing. -/
def Obligations.KeySkipsTestTheNamedKey : Prop :=
  (∀ (s : State) (x : Reg) (k : Fin 16), (s.getV x).toNat = k.val →
    (∃ t, exec (.skp x) s = .next t ∧ { t with pc := s.pc } = s ∧
      t.pc = if s.keyPressed k = true then s.pc + 2 else s.pc) ∧
    (∃ t, exec (.sknp x) s = .next t ∧ { t with pc := s.pc } = s ∧
      t.pc = if s.keyPressed k = false then s.pc + 2 else s.pc)) ∧
  ∀ (s : State) (x : Reg), s.fault.cause = 0 → s.pc.toNat ≤ 0xFFE → (s.getV x).toNat > 0xF →
    (decode s.fetchWord = .instr (.skp x) ∨ decode s.fetchWord = .instr (.sknp x)) →
    step s = .next { s with
      fault := { cause := 5, pc := s.pc, opcode := s.fetchWord, addr := BitVec.ofNat 17 (s.getV x).toNat } }

/-- R162, R242: Fx07 copies DT as it stands before the step's own decrement, and the step then decrements DT. -/
def Obligations.ReadDelayTimerBeforeDecrement : Prop :=
  (∀ (s : State) (x : Reg),
    ∃ t, exec (.ldRegDT x) s = .next t ∧ { t with v := s.v } = s ∧ ∀ q, t.getV q = if q = x then s.dt else s.getV q) ∧
  ∀ (s : State) (x : Reg), s.fault.cause = 0 → s.pc.toNat ≤ 0xFFE → decode s.fetchWord = .instr (.ldRegDT x) →
    ∃ t, step s = .next t ∧ t.getV x = s.dt ∧
      (s.dt.toNat ≠ 0 → (t.getV x).toNat = t.dt.toNat + 1) ∧ (s.dt = 0 → t.getV x = 0 ∧ t.dt = 0)

/-- R163: Fx0A stores the lowest pressed key; with no key pressed the step leaves PC at the same instruction, still
decrements the timers and changes nothing else but OPCODE. -/
def Obligations.KeyWaitTakesLowestKeyOrRepeats : Prop :=
  (∀ (s : State) (x : Reg) (k : Fin 16), s.keyPressed k = true → (∀ j < k, s.keyPressed j = false) →
    ∃ t, exec (.ldRegK x) s = .next t ∧ { t with v := s.v } = s ∧ (t.getV x).toNat = k.val ∧
      ∀ q, q ≠ x → t.getV q = s.getV q) ∧
  (∀ (s : State) (x : Reg), (∀ k, s.keyPressed k = false) →
    exec (.ldRegK x) s = .next { s with pc := s.pc - 2 }) ∧
  ∀ (s : State) (x : Reg), s.fault.cause = 0 → s.pc.toNat ≤ 0xFFE → decode s.fetchWord = .instr (.ldRegK x) →
    (∀ k, s.keyPressed k = false) →
    ∃ t, step s = .next t ∧ t.dt.toNat = s.dt.toNat - 1 ∧ t.st.toNat = s.st.toNat - 1 ∧ t.opcode = s.fetchWord ∧
      { t with dt := s.dt, st := s.st, opcode := s.opcode } = s

/-- R164, R165, R241: Fx15 and Fx18 copy Vx into the timer and change nothing else; the step's decrement follows, so a value
`v` leaves `v - 1` when the step ends, and 0 leaves 0. -/
def Obligations.SetTimersThenDecrement : Prop :=
  (∀ (s : State) (x : Reg),
    (∃ t, exec (.ldDTReg x) s = .next t ∧ t.dt = s.getV x ∧ { t with dt := s.dt } = s) ∧
    (∃ t, exec (.ldSTReg x) s = .next t ∧ t.st = s.getV x ∧ { t with st := s.st } = s)) ∧
  ∀ (s : State) (x : Reg), s.fault.cause = 0 → s.pc.toNat ≤ 0xFFE →
    (decode s.fetchWord = .instr (.ldDTReg x) →
      ∃ t, step s = .next t ∧ t.dt.toNat = (s.getV x).toNat - 1 ∧ t.st.toNat = s.st.toNat - 1) ∧
    (decode s.fetchWord = .instr (.ldSTReg x) →
      ∃ t, step s = .next t ∧ t.st.toNat = (s.getV x).toNat - 1 ∧ t.dt.toNat = s.dt.toNat - 1)

/-! ### Index register and memory -/

/-- R180, R181, R182 (the 16-bit wrap is the spec's decision D15): the three writers of `I`, which change nothing else: the
12-bit immediate, the sum modulo 2^16, and FONT_BASE + 5 * Vx, exact for parameters as R10 asks. -/
def Obligations.IndexRegisterWriters : Prop :=
  ∀ (s : State) (x : Reg) (nnn : Addr12),
    (∃ t, exec (.ldI nnn) s = .next t ∧ t.i.toNat = nnn.toNat ∧ { t with i := s.i } = s) ∧
    (∃ t, exec (.addI x) s = .next t ∧ t.i.toNat = (s.i.toNat + (s.getV x).toNat) % 65536 ∧ { t with i := s.i } = s) ∧
    (∃ t, exec (.ldFont x) s = .next t ∧ { t with i := s.i } = s ∧
      (s.params.WellFormed → t.i.toNat = s.params.fontBase.toNat + 5 * (s.getV x).toNat))

/-- R183 (the fault is the spec's decision D5): Fx33 stores the hundreds, tens and ones digits of Vx at I, I+1, I+2 and
changes nothing else; when I+2 lies above 0xFFF it raises MEM_RANGE with the first bad address and writes nothing. -/
def Obligations.BcdStoresThreeDigits : Prop :=
  (∀ (s : State) (x : Reg), Memory.wf s.params s.mem → s.i.toNat + 2 ≤ 0xFFF →
    ∃ t, exec (.ldBcd x) s = .next t ∧
      (t.readByte s.i.toNat).toNat = (s.getV x).toNat / 100 ∧
      (t.readByte (s.i.toNat + 1)).toNat = (s.getV x).toNat / 10 % 10 ∧
      (t.readByte (s.i.toNat + 2)).toNat = (s.getV x).toNat % 10 ∧
      SameMemoryOutside s.i.toNat 3 s t ∧ { t with mem := s.mem } = s) ∧
  ∀ (s : State) (x : Reg), s.i.toNat + 2 > 0xFFF →
    exec (.ldBcd x) s = .next { s with
      pc := s.pc - 2,
      fault := { cause := 2, pc := s.pc - 2, opcode := s.opcode, addr := BitVec.ofNat 17 (max s.i.toNat 0x1000) } }

/-- R184 (the fault and the unchanged I are the spec's decisions D5, D14): Fx55 stores V0 to Vx at I, I+1, …, and changes
nothing else; when I+x lies above 0xFFF it raises MEM_RANGE with the first bad address and writes nothing. -/
def Obligations.StoreRegistersWritesBlock : Prop :=
  (∀ (s : State) (x : Reg), Memory.wf s.params s.mem → s.i.toNat + x.val ≤ 0xFFF →
    ∃ t, exec (.storeRegs x) s = .next t ∧ (∀ j ≤ x, t.readByte (s.i.toNat + j.val) = s.getV j) ∧
      SameMemoryOutside s.i.toNat (x.val + 1) s t ∧ { t with mem := s.mem } = s) ∧
  ∀ (s : State) (x : Reg), s.i.toNat + x.val > 0xFFF →
    exec (.storeRegs x) s = .next { s with
      pc := s.pc - 2,
      fault := { cause := 2, pc := s.pc - 2, opcode := s.opcode, addr := BitVec.ofNat 17 (max s.i.toNat 0x1000) } }

/-- R185 (the fault and the unchanged I are the spec's decisions D5, D14): Fx65 loads V0 to Vx from I, I+1, …, and changes
nothing else; when I+x lies above 0xFFF it raises MEM_RANGE with the first bad address and writes no register. -/
def Obligations.LoadRegistersReadsBlock : Prop :=
  (∀ (s : State) (x : Reg), s.i.toNat + x.val ≤ 0xFFF →
    ∃ t, exec (.loadRegs x) s = .next t ∧
      (∀ q, t.getV q = if q ≤ x then s.readByte (s.i.toNat + q.val) else s.getV q) ∧ { t with v := s.v } = s) ∧
  ∀ (s : State) (x : Reg), s.i.toNat + x.val > 0xFFF →
    exec (.loadRegs x) s = .next { s with
      pc := s.pc - 2,
      fault := { cause := 2, pc := s.pc - 2, opcode := s.opcode, addr := BitVec.ofNat 17 (max s.i.toNat 0x1000) } }

/-- R184, R185: a load after a store of the same block, whatever the registers hold in between, restores the stored
registers and leaves those above x as they are. -/
def Obligations.StoreThenLoadRoundTrips : Prop :=
  ∀ (s t u : State) (x : Reg), Memory.wf s.params s.mem → s.i.toNat + x.val ≤ 0xFFF →
    exec (.storeRegs x) s = .next t → u.i = t.i → u.mem = t.mem → u.params = t.params →
    ∃ w, exec (.loadRegs x) u = .next w ∧ (∀ q ≤ x, w.getV q = s.getV q) ∧ ∀ q, x < q → w.getV q = u.getV q

/-- R52, R65, R243 (which the spec derives from R61): a word stored by Fx55 is the word a later fetch at its address sees. -/
def Obligations.StoredBytesAreFetched : Prop :=
  ∀ (s t u : State) (x j : Reg) (k : Reg), Memory.wf s.params s.mem → s.i.toNat + x.val ≤ 0xFFF →
    exec (.storeRegs x) s = .next t → k.val = j.val + 1 → k ≤ x →
    u.mem = t.mem → u.params = t.params → u.pc.toNat = s.i.toNat + j.val →
    u.fetchWord.toNat = 256 * (s.getV j).toNat + (s.getV k).toNat

/-! ### Initialisation and the host's ports -/

/-- R42, R230 (the rows for I, SP, the stack, the timers, FB, KEY, OPCODE and the fault status are the spec's decision D16):
every field of the state after initialisation, on every machine; `State.reset` is that state for the defaults of R9. -/
def Obligations.InitialisationLeavesResetState : Prop :=
  (∀ (p : Params) (seed : Nat) (forced : List Byte) (s : State), s = portInit p seed forced →
    (∀ r, s.getV r = 0) ∧ s.pc = 0x200 ∧ s.i = 0 ∧ s.sp.val = 0 ∧ (∀ j < 16, s.stack[j]? = some 0) ∧ s.dt = 0 ∧
    s.st = 0 ∧ (∀ c r, s.fb.get c r = false) ∧ (∀ k, s.keyPressed k = false) ∧ s.opcode = 0 ∧
    s.fault.cause = 0 ∧ s.fault.pc = 0 ∧ s.fault.opcode = 0 ∧ s.fault.addr = 0 ∧ s.rng.seed = seed ∧
    (∀ j < 80, some (s.readByte (p.fontBase.toNat + j)) = p.fontData[j]?) ∧
    (∀ a, ¬ (p.fontBase.toNat ≤ a ∧ a < p.fontBase.toNat + 80) → s.readByte a = 0)) ∧
  ∃ seed forced, State.reset = portInit defaultParams seed forced

/-- R67, R214 (the spec's decision D21): Load copies an image of at most 3584 bytes verbatim to 0x200 upward and changes
nothing else; a longer one is LoadTooLarge, an unreadable one LoadIO, and memory stays. After an empty load the first fetch on
a machine whose parameters are as R10 asks reads 0x0000, which is CLS. In a session a load error is surfaced; that a Step after
it, and a second load after one that succeeded, are answered with `notNow` is the model's choice (assumption log 10). -/
def Obligations.LoadCopiesProgramVerbatim : Prop :=
  (∀ (s : State) (image : List Byte), Memory.wf s.params s.mem → image.length ≤ 3584 →
    ∃ t, portLoad (some image) s = .ok t ∧ (∀ j < image.length, some (t.readByte (0x200 + j)) = image[j]?) ∧
      SameMemoryOutside 0x200 image.length s t ∧ { t with mem := s.mem } = s ∧ Memory.wf t.params t.mem) ∧
  (∀ (s : State) (image : List Byte), image.length > 3584 → portLoad (some image) s = .error .loadTooLarge) ∧
  (∀ s : State, portLoad none s = .error .loadIO) ∧
  (∀ (h : Session) (image : Option (List Byte)) (e : PortError), h.phase = .initialised →
    portLoad image h.core = .error e →
    ∃ g, h.call (.load image) = (g, some e) ∧ g.core = h.core ∧ g.call .step = (g, some .notNow)) ∧
  (∀ (h g : Session) (image again : Option (List Byte)), h.phase = .initialised → h.call (.load image) = (g, none) →
    g.call (.load again) = (g, some .notNow)) ∧
  ∀ (p : Params) (seed : Nat) (forced : List Byte), p.WellFormed →
    ∃ t, portLoad (some []) (portInit p seed forced) = .ok t ∧ t.fetchWord = 0 ∧ decode t.fetchWord = .instr .cls

/-- R215 (the spec's decision D18): SetKey writes the one key cell it names and nothing else; an index outside 0..15 is
refused at the port. -/
def Obligations.SetKeyWritesOneCell : Prop :=
  (∀ (s : State) (k : Fin 16) (pressed : Bool),
    ∃ t, portSetKey k.val pressed s = .ok t ∧ (∀ j, t.keyPressed j = if j = k then pressed else s.keyPressed j) ∧
      { t with keys := s.keys } = s) ∧
  ∀ (s : State) (k : Nat) (pressed : Bool), k > 15 → portSetKey k pressed s = .error .keyIndexOutside

/-- R218 (the spec's decision D19): ReadFB presents cell (c, r) at index `r * 64 + c`, on as the all-ones word of the
presenter's width, off as 0, and nothing else. -/
def Obligations.ReadFramebufferIsRowMajor : Prop :=
  ∀ (w : Nat) (s : State), (portReadFB w s).length = 2048 ∧
    ∀ (c : Fin 64) (r : Fin 32),
      (portReadFB w s)[r.val * 64 + c.val]? = some (if s.fb.get c r = true then BitVec.allOnes w else 0)

/-- R219, R67 (the spec's decisions D18, D21; which phase refuses which call is the model's choice, assumption log 10): the
host can step only after a successful Load, can load only right after Init, and after Load has no call but Init that
writes anything outside a step other than a key cell. -/
def Obligations.SessionOrdersHostCalls : Prop :=
  (∀ h : Session, h.phase ≠ .loaded → h.call .step = (h, some .notNow)) ∧
  (∀ (h : Session) (image : Option (List Byte)), h.phase ≠ .initialised → h.call (.load image) = (h, some .notNow)) ∧
  (∀ (h : Session) (image : List Byte), h.phase = .initialised → image.length ≤ 3584 →
    ∃ t, portLoad (some image) h.core = .ok t ∧ h.call (.load (some image)) = ({ phase := .loaded, core := t }, none)) ∧
  (∀ (h : Session) (t : State), h.phase = .loaded → step h.core = .next t →
    h.call .step = ({ phase := .loaded, core := t }, none)) ∧
  ∀ (h : Session) (c : HostCall), h.phase = .loaded → (∀ seed forced, c ≠ .init seed forced) → c ≠ .step →
    { (h.call c).1.core with keys := h.core.keys } = h.core

/-- R99, R93: at a self-jump every step leaves the state unchanged except the timers, which count down to 0 and stay there,
however many steps run. -/
def Obligations.SelfJumpOnlyCountsTimers : Prop :=
  ∀ (s : State) (nnn : Addr12) (k : Nat), s.fault.cause = 0 → s.pc.toNat ≤ 0xFFE →
    decode s.fetchWord = .instr (.jpAddr nnn) → nnn.toNat = s.pc.toNat → s.opcode = s.fetchWord →
    ∃ t, core.run k s = .next t ∧ t.dt.toNat = s.dt.toNat - k ∧ t.st.toNat = s.st.toNat - k ∧
      { t with dt := s.dt, st := s.st } = s
end

