-- ==== Sys2Proof/Laws/State.lean ====
section
/-! SUPPORT. What each update of the state does to each field: one lemma per field per update, so that no later proof unfolds a
record update. -/

namespace Sys2Proof.Machine

variable (s : State)

/-! ### setV -/

@[simp] theorem State.setV_v (r : Reg) (b : Byte) : (s.setV r b).v = s.v.set r.val b r.isLt := rfl
@[simp] theorem State.setV_i (r : Reg) (b : Byte) : (s.setV r b).i = s.i := rfl
@[simp] theorem State.setV_pc (r : Reg) (b : Byte) : (s.setV r b).pc = s.pc := rfl
@[simp] theorem State.setV_sp (r : Reg) (b : Byte) : (s.setV r b).sp = s.sp := rfl
@[simp] theorem State.setV_stack (r : Reg) (b : Byte) : (s.setV r b).stack = s.stack := rfl
@[simp] theorem State.setV_dt (r : Reg) (b : Byte) : (s.setV r b).dt = s.dt := rfl
@[simp] theorem State.setV_st (r : Reg) (b : Byte) : (s.setV r b).st = s.st := rfl
@[simp] theorem State.setV_mem (r : Reg) (b : Byte) : (s.setV r b).mem = s.mem := rfl
@[simp] theorem State.setV_fb (r : Reg) (b : Byte) : (s.setV r b).fb = s.fb := rfl
@[simp] theorem State.setV_keys (r : Reg) (b : Byte) : (s.setV r b).keys = s.keys := rfl
@[simp] theorem State.setV_opcode (r : Reg) (b : Byte) : (s.setV r b).opcode = s.opcode := rfl
@[simp] theorem State.setV_rng (r : Reg) (b : Byte) : (s.setV r b).rng = s.rng := rfl
@[simp] theorem State.setV_fault (r : Reg) (b : Byte) : (s.setV r b).fault = s.fault := rfl
@[simp] theorem State.setV_params (r : Reg) (b : Byte) : (s.setV r b).params = s.params := rfl
@[simp] theorem State.setV_readByte (r : Reg) (b : Byte) (x : Nat) : (s.setV r b).readByte x = s.readByte x := rfl

/-! ### setPC -/

@[simp] theorem State.setPC_v (a : Word) : (s.setPC a).v = s.v := rfl
@[simp] theorem State.setPC_i (a : Word) : (s.setPC a).i = s.i := rfl
@[simp] theorem State.setPC_pc (a : Word) : (s.setPC a).pc = a := rfl
@[simp] theorem State.setPC_sp (a : Word) : (s.setPC a).sp = s.sp := rfl
@[simp] theorem State.setPC_stack (a : Word) : (s.setPC a).stack = s.stack := rfl
@[simp] theorem State.setPC_dt (a : Word) : (s.setPC a).dt = s.dt := rfl
@[simp] theorem State.setPC_st (a : Word) : (s.setPC a).st = s.st := rfl
@[simp] theorem State.setPC_mem (a : Word) : (s.setPC a).mem = s.mem := rfl
@[simp] theorem State.setPC_fb (a : Word) : (s.setPC a).fb = s.fb := rfl
@[simp] theorem State.setPC_keys (a : Word) : (s.setPC a).keys = s.keys := rfl
@[simp] theorem State.setPC_opcode (a : Word) : (s.setPC a).opcode = s.opcode := rfl
@[simp] theorem State.setPC_rng (a : Word) : (s.setPC a).rng = s.rng := rfl
@[simp] theorem State.setPC_fault (a : Word) : (s.setPC a).fault = s.fault := rfl
@[simp] theorem State.setPC_params (a : Word) : (s.setPC a).params = s.params := rfl
@[simp] theorem State.setPC_getV (a : Word) (q : Reg) : (s.setPC a).getV q = s.getV q := rfl
@[simp] theorem State.setPC_readByte (a : Word) (x : Nat) : (s.setPC a).readByte x = s.readByte x := rfl

/-! ### setI -/

@[simp] theorem State.setI_v (a : Word) : (s.setI a).v = s.v := rfl
@[simp] theorem State.setI_i (a : Word) : (s.setI a).i = a := rfl
@[simp] theorem State.setI_pc (a : Word) : (s.setI a).pc = s.pc := rfl
@[simp] theorem State.setI_sp (a : Word) : (s.setI a).sp = s.sp := rfl
@[simp] theorem State.setI_stack (a : Word) : (s.setI a).stack = s.stack := rfl
@[simp] theorem State.setI_dt (a : Word) : (s.setI a).dt = s.dt := rfl
@[simp] theorem State.setI_st (a : Word) : (s.setI a).st = s.st := rfl
@[simp] theorem State.setI_mem (a : Word) : (s.setI a).mem = s.mem := rfl
@[simp] theorem State.setI_fb (a : Word) : (s.setI a).fb = s.fb := rfl
@[simp] theorem State.setI_keys (a : Word) : (s.setI a).keys = s.keys := rfl
@[simp] theorem State.setI_opcode (a : Word) : (s.setI a).opcode = s.opcode := rfl
@[simp] theorem State.setI_rng (a : Word) : (s.setI a).rng = s.rng := rfl
@[simp] theorem State.setI_fault (a : Word) : (s.setI a).fault = s.fault := rfl
@[simp] theorem State.setI_params (a : Word) : (s.setI a).params = s.params := rfl
@[simp] theorem State.setI_getV (a : Word) (q : Reg) : (s.setI a).getV q = s.getV q := rfl
@[simp] theorem State.setI_readByte (a : Word) (x : Nat) : (s.setI a).readByte x = s.readByte x := rfl

/-! ### setDT -/

@[simp] theorem State.setDT_v (b : Byte) : (s.setDT b).v = s.v := rfl
@[simp] theorem State.setDT_i (b : Byte) : (s.setDT b).i = s.i := rfl
@[simp] theorem State.setDT_pc (b : Byte) : (s.setDT b).pc = s.pc := rfl
@[simp] theorem State.setDT_sp (b : Byte) : (s.setDT b).sp = s.sp := rfl
@[simp] theorem State.setDT_stack (b : Byte) : (s.setDT b).stack = s.stack := rfl
@[simp] theorem State.setDT_dt (b : Byte) : (s.setDT b).dt = b := rfl
@[simp] theorem State.setDT_st (b : Byte) : (s.setDT b).st = s.st := rfl
@[simp] theorem State.setDT_mem (b : Byte) : (s.setDT b).mem = s.mem := rfl
@[simp] theorem State.setDT_fb (b : Byte) : (s.setDT b).fb = s.fb := rfl
@[simp] theorem State.setDT_keys (b : Byte) : (s.setDT b).keys = s.keys := rfl
@[simp] theorem State.setDT_opcode (b : Byte) : (s.setDT b).opcode = s.opcode := rfl
@[simp] theorem State.setDT_rng (b : Byte) : (s.setDT b).rng = s.rng := rfl
@[simp] theorem State.setDT_fault (b : Byte) : (s.setDT b).fault = s.fault := rfl
@[simp] theorem State.setDT_params (b : Byte) : (s.setDT b).params = s.params := rfl
@[simp] theorem State.setDT_getV (b : Byte) (q : Reg) : (s.setDT b).getV q = s.getV q := rfl
@[simp] theorem State.setDT_readByte (b : Byte) (x : Nat) : (s.setDT b).readByte x = s.readByte x := rfl

/-! ### setST -/

@[simp] theorem State.setST_v (b : Byte) : (s.setST b).v = s.v := rfl
@[simp] theorem State.setST_i (b : Byte) : (s.setST b).i = s.i := rfl
@[simp] theorem State.setST_pc (b : Byte) : (s.setST b).pc = s.pc := rfl
@[simp] theorem State.setST_sp (b : Byte) : (s.setST b).sp = s.sp := rfl
@[simp] theorem State.setST_stack (b : Byte) : (s.setST b).stack = s.stack := rfl
@[simp] theorem State.setST_dt (b : Byte) : (s.setST b).dt = s.dt := rfl
@[simp] theorem State.setST_st (b : Byte) : (s.setST b).st = b := rfl
@[simp] theorem State.setST_mem (b : Byte) : (s.setST b).mem = s.mem := rfl
@[simp] theorem State.setST_fb (b : Byte) : (s.setST b).fb = s.fb := rfl
@[simp] theorem State.setST_keys (b : Byte) : (s.setST b).keys = s.keys := rfl
@[simp] theorem State.setST_opcode (b : Byte) : (s.setST b).opcode = s.opcode := rfl
@[simp] theorem State.setST_rng (b : Byte) : (s.setST b).rng = s.rng := rfl
@[simp] theorem State.setST_fault (b : Byte) : (s.setST b).fault = s.fault := rfl
@[simp] theorem State.setST_params (b : Byte) : (s.setST b).params = s.params := rfl
@[simp] theorem State.setST_getV (b : Byte) (q : Reg) : (s.setST b).getV q = s.getV q := rfl
@[simp] theorem State.setST_readByte (b : Byte) (x : Nat) : (s.setST b).readByte x = s.readByte x := rfl

/-! ### writeByte -/

@[simp] theorem State.writeByte_v (a : Nat) (b : Byte) : (s.writeByte a b).v = s.v := rfl
@[simp] theorem State.writeByte_i (a : Nat) (b : Byte) : (s.writeByte a b).i = s.i := rfl
@[simp] theorem State.writeByte_pc (a : Nat) (b : Byte) : (s.writeByte a b).pc = s.pc := rfl
@[simp] theorem State.writeByte_sp (a : Nat) (b : Byte) : (s.writeByte a b).sp = s.sp := rfl
@[simp] theorem State.writeByte_stack (a : Nat) (b : Byte) : (s.writeByte a b).stack = s.stack := rfl
@[simp] theorem State.writeByte_dt (a : Nat) (b : Byte) : (s.writeByte a b).dt = s.dt := rfl
@[simp] theorem State.writeByte_st (a : Nat) (b : Byte) : (s.writeByte a b).st = s.st := rfl
@[simp] theorem State.writeByte_mem (a : Nat) (b : Byte) : (s.writeByte a b).mem = Memory.write s.params s.mem a b := rfl
@[simp] theorem State.writeByte_fb (a : Nat) (b : Byte) : (s.writeByte a b).fb = s.fb := rfl
@[simp] theorem State.writeByte_keys (a : Nat) (b : Byte) : (s.writeByte a b).keys = s.keys := rfl
@[simp] theorem State.writeByte_opcode (a : Nat) (b : Byte) : (s.writeByte a b).opcode = s.opcode := rfl
@[simp] theorem State.writeByte_rng (a : Nat) (b : Byte) : (s.writeByte a b).rng = s.rng := rfl
@[simp] theorem State.writeByte_fault (a : Nat) (b : Byte) : (s.writeByte a b).fault = s.fault := rfl
@[simp] theorem State.writeByte_params (a : Nat) (b : Byte) : (s.writeByte a b).params = s.params := rfl
@[simp] theorem State.writeByte_getV (a : Nat) (b : Byte) (q : Reg) : (s.writeByte a b).getV q = s.getV q := rfl

/-! ### takeFault -/

@[simp] theorem State.takeFault_v (a w : Word) (r : Raise) : (s.takeFault a w r).v = s.v := rfl
@[simp] theorem State.takeFault_i (a w : Word) (r : Raise) : (s.takeFault a w r).i = s.i := rfl
@[simp] theorem State.takeFault_pc (a w : Word) (r : Raise) : (s.takeFault a w r).pc = a := rfl
@[simp] theorem State.takeFault_sp (a w : Word) (r : Raise) : (s.takeFault a w r).sp = s.sp := rfl
@[simp] theorem State.takeFault_stack (a w : Word) (r : Raise) : (s.takeFault a w r).stack = s.stack := rfl
@[simp] theorem State.takeFault_dt (a w : Word) (r : Raise) : (s.takeFault a w r).dt = s.dt := rfl
@[simp] theorem State.takeFault_st (a w : Word) (r : Raise) : (s.takeFault a w r).st = s.st := rfl
@[simp] theorem State.takeFault_mem (a w : Word) (r : Raise) : (s.takeFault a w r).mem = s.mem := rfl
@[simp] theorem State.takeFault_fb (a w : Word) (r : Raise) : (s.takeFault a w r).fb = s.fb := rfl
@[simp] theorem State.takeFault_keys (a w : Word) (r : Raise) : (s.takeFault a w r).keys = s.keys := rfl
@[simp] theorem State.takeFault_opcode (a w : Word) (r : Raise) : (s.takeFault a w r).opcode = s.opcode := rfl
@[simp] theorem State.takeFault_rng (a w : Word) (r : Raise) : (s.takeFault a w r).rng = s.rng := rfl
@[simp] theorem State.takeFault_fault (a w : Word) (r : Raise) : (s.takeFault a w r).fault = { cause := r.cause.code, pc := a, opcode := w, addr := r.info } := rfl
@[simp] theorem State.takeFault_params (a w : Word) (r : Raise) : (s.takeFault a w r).params = s.params := rfl
@[simp] theorem State.takeFault_getV (a w : Word) (r : Raise) (q : Reg) : (s.takeFault a w r).getV q = s.getV q := rfl
@[simp] theorem State.takeFault_readByte (a w : Word) (r : Raise) (x : Nat) : (s.takeFault a w r).readByte x = s.readByte x := rfl

/-! ### raise -/

@[simp] theorem State.raise_v (r : Raise) : (s.raise r).v = s.v := rfl
@[simp] theorem State.raise_i (r : Raise) : (s.raise r).i = s.i := rfl
@[simp] theorem State.raise_pc (r : Raise) : (s.raise r).pc = s.pc - 2 := rfl
@[simp] theorem State.raise_sp (r : Raise) : (s.raise r).sp = s.sp := rfl
@[simp] theorem State.raise_stack (r : Raise) : (s.raise r).stack = s.stack := rfl
@[simp] theorem State.raise_dt (r : Raise) : (s.raise r).dt = s.dt := rfl
@[simp] theorem State.raise_st (r : Raise) : (s.raise r).st = s.st := rfl
@[simp] theorem State.raise_mem (r : Raise) : (s.raise r).mem = s.mem := rfl
@[simp] theorem State.raise_fb (r : Raise) : (s.raise r).fb = s.fb := rfl
@[simp] theorem State.raise_keys (r : Raise) : (s.raise r).keys = s.keys := rfl
@[simp] theorem State.raise_opcode (r : Raise) : (s.raise r).opcode = s.opcode := rfl
@[simp] theorem State.raise_rng (r : Raise) : (s.raise r).rng = s.rng := rfl
@[simp] theorem State.raise_fault (r : Raise) : (s.raise r).fault = { cause := r.cause.code, pc := s.pc - 2, opcode := s.opcode, addr := r.info } := rfl
@[simp] theorem State.raise_params (r : Raise) : (s.raise r).params = s.params := rfl
@[simp] theorem State.raise_getV (r : Raise) (q : Reg) : (s.raise r).getV q = s.getV q := rfl
@[simp] theorem State.raise_readByte (r : Raise) (x : Nat) : (s.raise r).readByte x = s.readByte x := rfl

/-! ### drawRandom -/

@[simp] theorem State.drawRandom_v : s.drawRandom.v = s.v := rfl
@[simp] theorem State.drawRandom_i : s.drawRandom.i = s.i := rfl
@[simp] theorem State.drawRandom_pc : s.drawRandom.pc = s.pc := rfl
@[simp] theorem State.drawRandom_sp : s.drawRandom.sp = s.sp := rfl
@[simp] theorem State.drawRandom_stack : s.drawRandom.stack = s.stack := rfl
@[simp] theorem State.drawRandom_dt : s.drawRandom.dt = s.dt := rfl
@[simp] theorem State.drawRandom_st : s.drawRandom.st = s.st := rfl
@[simp] theorem State.drawRandom_mem : s.drawRandom.mem = s.mem := rfl
@[simp] theorem State.drawRandom_fb : s.drawRandom.fb = s.fb := rfl
@[simp] theorem State.drawRandom_keys : s.drawRandom.keys = s.keys := rfl
@[simp] theorem State.drawRandom_opcode : s.drawRandom.opcode = s.opcode := rfl
@[simp] theorem State.drawRandom_rng : s.drawRandom.rng = s.rng.advance := rfl
@[simp] theorem State.drawRandom_fault : s.drawRandom.fault = s.fault := rfl
@[simp] theorem State.drawRandom_params : s.drawRandom.params = s.params := rfl
@[simp] theorem State.drawRandom_getV (q : Reg) : s.drawRandom.getV q = s.getV q := rfl
@[simp] theorem State.drawRandom_readByte (x : Nat) : s.drawRandom.readByte x = s.readByte x := rfl

/-! ### fetched -/

@[simp] theorem State.fetched_v : s.fetched.v = s.v := rfl
@[simp] theorem State.fetched_i : s.fetched.i = s.i := rfl
@[simp] theorem State.fetched_pc : s.fetched.pc = s.pc + 2 := rfl
@[simp] theorem State.fetched_sp : s.fetched.sp = s.sp := rfl
@[simp] theorem State.fetched_stack : s.fetched.stack = s.stack := rfl
@[simp] theorem State.fetched_dt : s.fetched.dt = s.dt := rfl
@[simp] theorem State.fetched_st : s.fetched.st = s.st := rfl
@[simp] theorem State.fetched_mem : s.fetched.mem = s.mem := rfl
@[simp] theorem State.fetched_fb : s.fetched.fb = s.fb := rfl
@[simp] theorem State.fetched_keys : s.fetched.keys = s.keys := rfl
@[simp] theorem State.fetched_opcode : s.fetched.opcode = s.fetchWord := rfl
@[simp] theorem State.fetched_rng : s.fetched.rng = s.rng := rfl
@[simp] theorem State.fetched_fault : s.fetched.fault = s.fault := rfl
@[simp] theorem State.fetched_params : s.fetched.params = s.params := rfl
@[simp] theorem State.fetched_getV (q : Reg) : s.fetched.getV q = s.getV q := rfl
@[simp] theorem State.fetched_readByte (x : Nat) : s.fetched.readByte x = s.readByte x := rfl

/-! ### tick -/

@[simp] theorem State.tick_v : s.tick.v = s.v := rfl
@[simp] theorem State.tick_i : s.tick.i = s.i := rfl
@[simp] theorem State.tick_pc : s.tick.pc = s.pc := rfl
@[simp] theorem State.tick_sp : s.tick.sp = s.sp := rfl
@[simp] theorem State.tick_stack : s.tick.stack = s.stack := rfl
@[simp] theorem State.tick_dt : s.tick.dt = tickTimer s.dt := rfl
@[simp] theorem State.tick_st : s.tick.st = tickTimer s.st := rfl
@[simp] theorem State.tick_mem : s.tick.mem = s.mem := rfl
@[simp] theorem State.tick_fb : s.tick.fb = s.fb := rfl
@[simp] theorem State.tick_keys : s.tick.keys = s.keys := rfl
@[simp] theorem State.tick_opcode : s.tick.opcode = s.opcode := rfl
@[simp] theorem State.tick_rng : s.tick.rng = s.rng := rfl
@[simp] theorem State.tick_fault : s.tick.fault = s.fault := rfl
@[simp] theorem State.tick_params : s.tick.params = s.params := rfl
@[simp] theorem State.tick_getV (q : Reg) : s.tick.getV q = s.getV q := rfl
@[simp] theorem State.tick_readByte (x : Nat) : s.tick.readByte x = s.readByte x := rfl

/-! ### Reading a register after a write -/

theorem State.getV_setV (r q : Reg) (b : Byte) : (s.setV r b).getV q = if q = r then b else s.getV q := by
  simp only [State.getV, State.setV, Vector.getElem_set, Fin.ext_iff]
  by_cases h : r.val = q.val
  · simp [h]
  · simp [h, Ne.symm h]

@[simp] theorem State.getV_setV_same (r : Reg) (b : Byte) : (s.setV r b).getV r = b := by
  simp [State.getV_setV]

theorem State.getV_setV_other (r q : Reg) (b : Byte) (h : q ≠ r) : (s.setV r b).getV q = s.getV q := by
  simp [State.getV_setV, h]

/-- Two states that read the same through every register hold the same register file. -/
theorem State.v_ext {s t : State} (h : ∀ q, t.getV q = s.getV q) : t.v = s.v :=
  Vector.ext fun j hj => h ⟨j, hj⟩

/-! ### SkipIf -/

@[simp] theorem State.skipIf_pc (c : Bool) : (s.skipIf c).pc = if c then s.pc + 2 else s.pc := by
  cases c <;> rfl

/-- A conditional skip writes the program counter and nothing else. -/
theorem State.skipIf_eq (c : Bool) : s.skipIf c = s.setPC (if c then s.pc + 2 else s.pc) := by
  cases c <;> rfl

end Sys2Proof.Machine
end

