-- ==== Sys2Proof/Laws/Display.lean ====
section
/-! SUPPORT. The framebuffer: one toggle, what a list of toggles does, and the cells a sprite plots. -/

namespace Sys2Proof.Machine

/-- A toggled cell changes, every other cell stays. -/
theorem Framebuffer.get_toggle (fb : Framebuffer) (c c' : Fin 64) (r r' : Fin 32) :
    (fb.toggle c r).get c' r' = if c' = c ∧ r' = r then !(fb.get c' r') else fb.get c' r' := by
  unfold Framebuffer.toggle Framebuffer.get
  by_cases hr : r' = r
  · subst hr
    by_cases hc : c' = c
    · subst hc
      simp
    · have : c.val ≠ c'.val := fun h => hc (Fin.ext h.symm)
      simp [hc, this]
  · have : r.val ≠ r'.val := fun h => hr (Fin.ext h.symm)
    simp [hr, this]

@[simp] theorem Framebuffer.get_blank (c : Fin 64) (r : Fin 32) : Framebuffer.blank.get c r = false := by
  simp [Framebuffer.blank, Framebuffer.get]

/-- Two framebuffers that agree on every cell are equal. -/
theorem Framebuffer.ext_get (f g : Framebuffer) (h : ∀ c r, f.get c r = g.get c r) : f = g := by
  refine Vector.ext fun r hr => Vector.ext fun c hc => ?_
  exact h ⟨c, hc⟩ ⟨r, hr⟩

/-- Plotting a list of distinct cells: each is toggled once, every other cell stays, and the collision flag is raised when one of
them was on. -/
theorem plot_foldl (L : List (Fin 64 × Fin 32)) (hL : L.Nodup) (fb : Framebuffer) (b : Bool) :
    (∀ c r, (L.foldl plot (fb, b)).1.get c r = (fb.get c r ^^ decide ((c, r) ∈ L))) ∧
    (L.foldl plot (fb, b)).2 = (b || L.any fun p => fb.get p.1 p.2) := by
  induction L generalizing fb b with
  | nil => simp
  | cons p L ih =>
    obtain ⟨hp, hL⟩ := List.nodup_cons.1 hL
    have this : _ ∧ (L.foldl plot (fb.toggle p.1 p.2, b || fb.get p.1 p.2)).2 = _ :=
      ih hL (fb.toggle p.1 p.2) (b || fb.get p.1 p.2)
    rw [List.foldl_cons]
    refine ⟨fun c r => (this.1 c r).trans ?_, this.2.trans ?_⟩
    · rw [Framebuffer.get_toggle]
      by_cases e : (c, r) = p
      · subst e; simp [hp]
      · rw [if_neg (by rintro ⟨rfl, rfl⟩; exact e rfl)]; simp [e]
    · rw [List.any_cons, Bool.or_assoc]
      congr 2
      rw [Bool.eq_iff_iff, List.any_eq_true, List.any_eq_true]
      refine exists_congr fun q => and_congr_right fun hq => ?_
      rw [Framebuffer.get_toggle, if_neg]
      rintro ⟨h1, h2⟩
      exact hp (by rw [show p = q from Prod.ext h1.symm h2.symm]; exact hq)

/-- The cells a sprite plots are those under its set bits. -/
theorem State.mem_spriteCells (s : State) (x y : Reg) (n : Nibble) (c : Fin 64) (r : Fin 32) :
    (c, r) ∈ s.spriteCells (s.getV x) (s.getV y) n.toNat ↔ s.spriteLit x y n c r = true := by
  have hn : n.toNat < 16 := n.isLt
  simp only [State.spriteCells, List.mem_flatMap, List.mem_range, List.mem_map, List.mem_filter, State.spriteLit,
    Bool.and_eq_true, decide_eq_true_eq]
  constructor
  · rintro ⟨r', hr', c', ⟨hc', hb⟩, e⟩
    cases e
    have e1 : (((s.getV x).toNat % 64 + c') % 64 + 64 - (s.getV x).toNat % 64) % 64 = c' := by omega
    have e2 : (((s.getV y).toNat % 32 + r') % 32 + 32 - (s.getV y).toNat % 32) % 32 = r' := by omega
    simp only [Fin.ofNat]
    rw [e1, e2]
    exact ⟨⟨hr', hc'⟩, hb⟩
  · rintro ⟨⟨h1, h2⟩, h3⟩
    refine ⟨_, h1, _, ⟨h2, h3⟩, ?_⟩
    have := c.isLt; have := r.isLt
    refine Prod.ext (Fin.ext ?_) (Fin.ext ?_) <;> simp only [spriteCell, Fin.ofNat] <;> omega

/-- A sprite plots no cell twice (R154). -/
theorem State.nodup_spriteCells (s : State) (ox oy : Byte) (n : Nibble) : (s.spriteCells ox oy n.toNat).Nodup := by
  have hn : n.toNat < 16 := n.isLt
  have inj : ∀ r c r' c', r < 16 → c < 8 → r' < 16 → c' < 8 →
      spriteCell ox oy r c = spriteCell ox oy r' c' → r = r' ∧ c = c' := by
    intro r c r' c' h1 h2 h3 h4 e
    simp only [spriteCell, Fin.ofNat, Prod.mk.injEq, Fin.mk.injEq] at e
    omega
  unfold State.spriteCells
  rw [List.nodup_flatMap]
  refine ⟨fun r hr => ?_, ?_⟩
  · rw [List.mem_range] at hr
    refine List.Nodup.map_on ?_ (List.nodup_range.filter _)
    intro c hc c' hc' e
    simp only [List.mem_filter, List.mem_range] at hc hc'
    exact (inj r c r c' (by omega) hc.1 (by omega) hc'.1 e).2
  · refine (List.nodup_range (n := n.toNat)).pairwise_of_forall_ne ?_
    intro r hr r' hr' hne
    rw [List.mem_range] at hr hr'
    intro p hp hp'
    simp only [List.mem_map, List.mem_filter, List.mem_range] at hp hp'
    obtain ⟨c, hc, rfl⟩ := hp
    obtain ⟨c', hc', e⟩ := hp'
    exact hne (inj r c r' c' (by omega) hc.1 (by omega) hc'.1 e.symm).1

end Sys2Proof.Machine
end

