-- ==== Sys2Proof/Laws/Memory.lean ====
section
/-! SUPPORT. Memory: a read after a write, and that every memory operation keeps the canonical form. -/

namespace Sys2Proof.Machine

variable (p : Params)

/-- A cell below every listed address is not listed. -/
theorem Memory.read_of_lt (m : Memory) (a : Nat) (h : ∀ c ∈ m, a < c.1) : Memory.read p m a = resetByte p a := by
  induction m with
  | nil => rfl
  | cons c rest ih =>
    obtain ⟨k, b⟩ := c
    have hk : a < k := h (k, b) (by simp)
    rw [Memory.read, if_neg (by omega)]
    exact ih fun c hc => h c (by simp [hc])

/-- Reading the head cell written by `Memory.cell`, over cells that lie above it. -/
theorem Memory.read_cell (rest : Memory) (a x : Nat) (b : Byte) (h : ∀ c ∈ rest, a < c.1) :
    Memory.read p (Memory.cell p a b rest) x = if x = a then b else Memory.read p rest x := by
  unfold Memory.cell
  split
  · rename_i hb
    by_cases hx : x = a
    · subst hx
      rw [if_pos rfl, Memory.read_of_lt p rest x h, hb]
    · rw [if_neg hx]
  · rw [Memory.read]
    by_cases hx : x = a
    · simp [hx]
    · simp [hx, Ne.symm hx]

/-- A read after a write: the byte written at that address, every other byte as before. -/
theorem Memory.read_write (m : Memory) (hm : m.Pairwise fun c d => c.1 < d.1) (a x : Nat) (b : Byte) :
    Memory.read p (Memory.write p m a b) x = if x = a then b else Memory.read p m x := by
  induction m with
  | nil => exact Memory.read_cell p [] a x b (by simp)
  | cons c rest ih =>
    obtain ⟨k, v⟩ := c
    obtain ⟨hk, hrest⟩ := List.pairwise_cons.mp hm
    rw [Memory.write]
    split
    · rename_i hlt
      refine Memory.read_cell p _ a x b fun c hc => ?_
      rcases List.mem_cons.mp hc with rfl | hc
      · exact hlt
      · exact lt_trans hlt (hk c hc)
    · split
      · rename_i heq
        subst heq
        rw [Memory.read_cell p rest a x b hk, Memory.read]
        by_cases hx : x = a
        · simp [hx]
        · simp [hx, Ne.symm hx]
      · rename_i hne
        rw [Memory.read, Memory.read, ih hrest]
        by_cases hkx : k = x
        · have hxa : ¬ x = a := by omega
          simp [hkx, hxa]
        · simp [hkx]

/-- The cells of a written memory: the one written, or one that was there. -/
theorem Memory.mem_write (m : Memory) (a : Nat) (b : Byte) (c : Host.Cell) (hc : c ∈ Memory.write p m a b) :
    (c = (a, b) ∧ b ≠ resetByte p a) ∨ c ∈ m := by
  have cell : ∀ rest : Memory, c ∈ Memory.cell p a b rest → (c = (a, b) ∧ b ≠ resetByte p a) ∨ c ∈ rest := by
    intro rest h
    unfold Memory.cell at h
    split at h
    · exact .inr h
    · rcases List.mem_cons.mp h with h | h
      · exact .inl ⟨h, by assumption⟩
      · exact .inr h
  induction m with
  | nil => exact cell [] hc
  | cons d rest ih =>
    obtain ⟨k, v⟩ := d
    rw [Memory.write] at hc
    split at hc
    · exact cell _ hc
    · split at hc
      · exact (cell _ hc).imp_right (List.mem_cons_of_mem _)
      · rcases List.mem_cons.mp hc with h | h
        · exact .inr (by simp [h])
        · exact (ih h).imp_right (List.mem_cons_of_mem _)

/-- Writing a byte inside the address space keeps the canonical form. -/
theorem Memory.write_wf (m : Memory) (a : Nat) (b : Byte) (ha : a < Config.memSize) (h : Memory.wf p m) :
    Memory.wf p (Memory.write p m a b) := by
  obtain ⟨hsorted, hcells⟩ := h
  refine ⟨?_, fun c hc => ?_⟩
  · clear hcells
    have cell : ∀ rest : Memory, rest.Pairwise (fun c d => c.1 < d.1) → (∀ c ∈ rest, a < c.1) →
        (Memory.cell p a b rest).Pairwise fun c d => c.1 < d.1 := by
      intro rest hr hlt
      unfold Memory.cell
      split
      · exact hr
      · exact List.pairwise_cons.mpr ⟨hlt, hr⟩
    induction m with
    | nil => exact cell [] .nil (by simp)
    | cons d rest ih =>
      obtain ⟨k, v⟩ := d
      obtain ⟨hk, hrest⟩ := List.pairwise_cons.mp hsorted
      rw [Memory.write]
      split
      · rename_i hlt
        refine cell _ hsorted fun c hc => ?_
        rcases List.mem_cons.mp hc with rfl | hc
        · exact hlt
        · exact lt_trans hlt (hk c hc)
      · split
        · rename_i heq
          subst heq
          exact cell rest hrest hk
        · rename_i hnlt hne
          refine List.pairwise_cons.mpr ⟨fun c hc => ?_, ih hrest⟩
          rcases Memory.mem_write p rest a b c hc with ⟨rfl, _⟩ | hc
          · show k < a
            omega
          · exact hk c hc
  · rcases Memory.mem_write p m a b c hc with ⟨rfl, hb⟩ | hc
    · exact ⟨ha, hb⟩
    · exact hcells c hc

/-- Two canonical memories that read the same everywhere are the same data. -/
theorem Memory.ext_of_wf (m n : Memory) (hm : Memory.wf p m) (hn : Memory.wf p n)
    (h : ∀ a, Memory.read p m a = Memory.read p n a) : m = n := by
  induction m generalizing n with
  | nil =>
    cases n with
    | nil => rfl
    | cons d rest =>
      have := h d.1
      rw [Memory.read, Memory.read, if_pos rfl] at this
      exact absurd this.symm (hn.2 d (by simp)).2
  | cons c restm ih =>
    obtain ⟨hcm, hrm⟩ := List.pairwise_cons.mp hm.1
    have hcne := (hm.2 c (by simp)).2
    have hc0 : Memory.read p (c :: restm) c.1 = c.2 := by rw [Memory.read, if_pos rfl]
    cases n with
    | nil =>
      have := h c.1
      rw [hc0, Memory.read] at this
      exact absurd this hcne
    | cons d restn =>
      obtain ⟨hdn, hrn⟩ := List.pairwise_cons.mp hn.1
      have hdne := (hn.2 d (by simp)).2
      have hd0 : Memory.read p (d :: restn) d.1 = d.2 := by rw [Memory.read, if_pos rfl]
      have hkey : c.1 = d.1 := by
        rcases Nat.lt_trichotomy c.1 d.1 with hlt | heq | hgt
        · have := h c.1
          rw [hc0, Memory.read_of_lt p _ c.1 ?_] at this
          · exact absurd this hcne
          · intro e he
            rcases List.mem_cons.mp he with rfl | he
            · exact hlt
            · exact lt_trans hlt (hdn e he)
        · exact heq
        · have := h d.1
          rw [hd0, Memory.read_of_lt p _ d.1 ?_] at this
          · exact absurd this.symm hdne
          · intro e he
            rcases List.mem_cons.mp he with rfl | he
            · exact hgt
            · exact lt_trans hgt (hcm e he)
      have hval : c.2 = d.2 := by
        have := h c.1
        rwa [hc0, hkey, hd0] at this
      have hcd : c = d := Prod.ext hkey hval
      subst hcd
      congr 1
      refine ih restn ⟨hrm, fun e he => hm.2 e (by simp [he])⟩ ⟨hrn, fun e he => hn.2 e (by simp [he])⟩ fun a => ?_
      by_cases ha : c.1 = a
      · subst ha
        rw [Memory.read_of_lt p _ c.1 hcm, Memory.read_of_lt p _ c.1 hdn]
      · have := h a
        rwa [Memory.read, Memory.read, if_neg ha, if_neg ha] at this

/-- A byte write seen through the state's reads. -/
theorem State.readByte_writeByte (s : State) (h : Memory.wf s.params s.mem) (a x : Nat) (b : Byte) :
    (s.writeByte a b).readByte x = if x = a then b else s.readByte x :=
  Memory.read_write s.params s.mem h.1 a x b

/-- A byte write inside the address space keeps the canonical form. -/
theorem State.writeByte_wf (s : State) (h : Memory.wf s.params s.mem) (a : Nat) (b : Byte) (ha : a < Config.memSize) :
    Memory.wf (s.writeByte a b).params (s.writeByte a b).mem :=
  Memory.write_wf s.params s.mem a b ha h

/-- Writing a list of bytes changes memory only. -/
theorem State.writeBytes_eq (s : State) (a : Nat) (bs : List Byte) :
    s.writeBytes a bs = { s with mem := (s.writeBytes a bs).mem } := by
  induction bs generalizing s a with
  | nil => rfl
  | cons b bs ih =>
    rw [State.writeBytes]
    exact (ih (s.writeByte a b) (a + 1)).trans rfl

/-- Writing a list of bytes inside the address space keeps the canonical form. -/
theorem State.writeBytes_wf (s : State) (h : Memory.wf s.params s.mem) (a : Nat) (bs : List Byte)
    (ha : a + bs.length ≤ Config.memSize) :
    Memory.wf s.params (s.writeBytes a bs).mem := by
  induction bs generalizing s a with
  | nil => exact h
  | cons b bs ih =>
    rw [List.length_cons] at ha
    exact ih (s.writeByte a b) (State.writeByte_wf s h a b (by omega)) (a + 1) (by omega)

/-- What memory reads after a list of bytes is written at `a`: the bytes written, every other byte as before. -/
theorem State.readByte_writeBytes (s : State) (h : Memory.wf s.params s.mem) (a : Nat) (bs : List Byte)
    (ha : a + bs.length ≤ Config.memSize) (x : Nat) :
    (s.writeBytes a bs).readByte x = if hx : a ≤ x ∧ x - a < bs.length then bs[x - a]'hx.2 else s.readByte x := by
  induction bs generalizing s a with
  | nil => simp [State.writeBytes]
  | cons b bs ih =>
    rw [List.length_cons] at ha
    have hr := State.readByte_writeByte s h a x b
    rw [State.writeBytes, ih (s.writeByte a b) (State.writeByte_wf s h a b (by omega)) (a + 1) (by omega)]
    rcases Nat.lt_trichotomy x a with hlt | heq | hgt
    · rw [dif_neg (by omega), dif_neg (by omega), hr, if_neg (by omega)]
    · subst heq
      rw [dif_neg (by omega), dif_pos (by simp), hr, if_pos rfl]
      simp
    · by_cases hx : x - a < bs.length + 1
      · rw [dif_pos (by omega), dif_pos (by simp; omega)]
        have he : x - a = (x - (a + 1)) + 1 := by omega
        simp only [he, List.getElem_cons_succ]
      · rw [dif_neg (by omega), dif_neg (by simp; omega), hr, if_neg (by omega)]

end Sys2Proof.Machine
end

