-- ==== Sys2Proof/Laws/Ops.lean ====
section
/-! SUPPORT. One lemma per shared operation that says once what it can do. -/

namespace Sys2Proof.Machine

variable (s : State)

/-- A handler's conclusion is always a next state. -/
theorem State.conclude_next (e : Except Raise State) :
    (∃ t, e = .ok t ∧ s.conclude e = .next t) ∨ (∃ r, e = .error r ∧ s.conclude e = .next (s.raise r)) := by
  cases e with
  | ok t => exact .inl ⟨t, rfl, rfl⟩
  | error r => exact .inr ⟨r, rfl, rfl⟩

@[simp] theorem State.conclude_ok (t : State) : s.conclude (.ok t) = .next t := rfl

@[simp] theorem State.conclude_error (r : Raise) : s.conclude (.error r) = .next (s.raise r) := rfl

/-- The first address above 0xFFF among `base, …, base + len - 1`. -/
theorem firstBadAddress_eq (base len : Nat) :
    firstBadAddress base len = if len ≠ 0 ∧ base + len > 0x1000 then some (max base 0x1000) else none := by
  unfold firstBadAddress
  split
  · rename_i h
    rw [List.find?_map, Option.map_eq_some_iff]
    refine ⟨max base 0x1000 - base, ?_, by omega⟩
    rw [List.find?_range_eq_some]
    refine ⟨by simp, by simp; omega, fun j hj => ?_⟩
    simp
    omega
  · rename_i h
    rw [List.find?_eq_none]
    intro a ha
    obtain ⟨j, hj, rfl⟩ := List.mem_map.mp ha
    rw [List.mem_range] at hj
    simp
    omega

/-- The range check: it passes exactly when every effective address is at most 0xFFF, and otherwise names the first that is
not. -/
theorem State.checkRange_eq (len : Nat) :
    s.checkRange len = if len ≠ 0 ∧ s.i.toNat + len > 0x1000
      then .error ⟨.memRange, BitVec.ofNat 17 (max s.i.toNat 0x1000)⟩ else .ok () := by
  unfold State.checkRange
  rw [firstBadAddress_eq]
  by_cases h : len ≠ 0 ∧ s.i.toNat + len > 0x1000
  · rw [if_pos h, if_pos h]
  · rw [if_neg h, if_neg h]

/-- A push onto a stack with a free slot. -/
theorem State.push_of_lt (w : Word) (h : s.sp.val < 16) :
    s.push w = .ok { s with stack := s.stack.set s.sp.val w h, sp := ⟨s.sp.val + 1, by omega⟩ } := dif_pos h

/-- A push onto a full stack. -/
theorem State.push_of_full (w : Word) (h : s.sp.val = 16) : s.push w = .error ⟨.stackOverflow, 0⟩ :=
  dif_neg (by omega)

/-- A pop from an empty stack. -/
theorem State.pop_of_empty (h : s.sp.val = 0) : s.pop = .error ⟨.stackUnderflow, 0⟩ := dif_pos h

/-- A pop from a stack that holds something. -/
theorem State.pop_of_pos (h : s.sp.val ≠ 0) :
    s.pop = .ok (s.stack[s.sp.val - 1]'(by omega), { s with sp := ⟨s.sp.val - 1, by omega⟩ }) := dif_neg h

/-- The key index of a register value up to 0xF. -/
theorem keyIndex_of_lt (b : Byte) (h : b.toNat < 16) : keyIndex b = .ok ⟨b.toNat, h⟩ := dif_pos h

/-- The key index of a register value above 0xF. -/
theorem keyIndex_of_gt (b : Byte) (h : b.toNat > 15) : keyIndex b = .error ⟨.keyRange, BitVec.ofNat 17 b.toNat⟩ := by
  rw [keyIndex, dif_neg (by omega)]
  congr 2
  rw [← BitVec.toNat_inj]
  simp

/-- The lowest pressed key: it is pressed and no lower key is. -/
theorem State.lowestKey_some (k : Fin 16) :
    s.lowestKey = some k ↔ s.keyPressed k = true ∧ ∀ j < k, s.keyPressed j = false := by
  unfold State.lowestKey
  rw [List.find?_eq_some_iff_getElem]
  constructor
  · rintro ⟨hk, i, hi, hik, hlt⟩
    rw [List.getElem_finRange] at hik
    refine ⟨hk, fun j hj => ?_⟩
    have hjk : j.val < i := by
      have : k.val = i := by rw [← hik]; rfl
      omega
    have := hlt j.val hjk
    rw [List.getElem_finRange] at this
    simpa using this
  · rintro ⟨hk, hlt⟩
    refine ⟨hk, k.val, by simp, by rw [List.getElem_finRange]; rfl, fun j hj => ?_⟩
    rw [List.getElem_finRange]
    simpa using hlt ⟨j, by omega⟩ hj

/-- No key is pressed. -/
theorem State.lowestKey_none : s.lowestKey = none ↔ ∀ k, s.keyPressed k = false := by
  simp [State.lowestKey, List.find?_eq_none]

/-- V0 to Vx. -/
theorem mem_regsUpTo (x j : Reg) : j ∈ regsUpTo x ↔ j ≤ x := by
  revert x j
  decide

@[simp] theorem length_regsUpTo (x : Reg) : (regsUpTo x).length = x.val + 1 := by
  revert x
  decide

/-- The registers of a block, by their place in it. -/
theorem getElem_regsUpTo (x : Reg) (j : Nat) (h : j < (regsUpTo x).length) (hj : j < 16) :
    (regsUpTo x)[j] = ⟨j, hj⟩ := by
  simp [regsUpTo, List.getElem_take, List.getElem_finRange]

/-- Writing a list of registers, each with a value that depends on its number only. -/
theorem State.foldl_setV (f : Reg → Byte) (rs : List Reg) (q : Reg) :
    (rs.foldl (fun t j => t.setV j (f j)) s).getV q = if q ∈ rs then f q else s.getV q := by
  induction rs generalizing s with
  | nil => simp
  | cons r rs ih =>
    rw [List.foldl_cons, ih, State.getV_setV]
    by_cases hq : q = r
    · subst hq
      simp
    · simp [hq]

/-- Writing registers changes the register file only. -/
theorem State.foldl_setV_eq (f : Reg → Byte) (rs : List Reg) :
    rs.foldl (fun t j => t.setV j (f j)) s = { s with v := (rs.foldl (fun t j => t.setV j (f j)) s).v } := by
  induction rs generalizing s with
  | nil => rfl
  | cons r rs ih =>
    rw [List.foldl_cons]
    exact (ih (s.setV r (f r))).trans rfl

/-- What a block load leaves in each register. -/
theorem State.getV_loadBlock (x q : Reg) :
    (s.loadBlock x).getV q = if q ≤ x then s.readByte (s.i.toNat + q.val) else s.getV q := by
  unfold State.loadBlock
  rw [State.foldl_setV s fun j => s.readByte (s.i.toNat + j.val)]
  simp only [mem_regsUpTo]

/-- A block load changes the register file only. -/
theorem State.loadBlock_eq (x : Reg) : s.loadBlock x = { s with v := (s.loadBlock x).v } :=
  State.foldl_setV_eq s (fun j => s.readByte (s.i.toNat + j.val)) (regsUpTo x)

/-- Flag first, then the result, register by register. -/
theorem State.getV_flagThenResult (x q : Reg) (flag : Byte) (result : State → Byte) :
    (s.flagThenResult x flag result).getV q =
      if q = x then (match s.params.aliasOrder with
        | .sequential => result (s.setV VF flag)
        | .snapshot => result s)
      else if q = VF then flag else s.getV q := by
  unfold State.flagThenResult
  cases h : s.params.aliasOrder <;> simp [State.getV_setV]

/-- Flag and result change the register file only. -/
theorem State.flagThenResult_eq (x : Reg) (flag : Byte) (result : State → Byte) :
    s.flagThenResult x flag result = { s with v := (s.flagThenResult x flag result).v } := by
  unfold State.flagThenResult
  split <;> rfl

end Sys2Proof.Machine
end

