-- ==== Sys2Proof/Laws/Exec.lean ====
section
/-! SUPPORT. What executing any instruction can end in, said once. -/

namespace Sys2Proof.Machine

/-- An instruction raises what `State.raises` names and nothing else, or completes with the fault status as it was. -/
theorem exec_cases (i : Instr) (s : State) :
    (∃ r, s.raises i = some r ∧ exec i s = .next (s.raise r)) ∨
    (s.raises i = none ∧ ∃ t, exec i s = .next t ∧ t.fault = s.fault) := by
  cases i
  case ret =>
    simp only [State.raises, exec, execRet]
    by_cases h : s.sp.val = 0
    · rw [State.pop_of_empty s h, if_pos h]; exact .inl ⟨_, rfl, rfl⟩
    · rw [State.pop_of_pos s h, if_neg h]; exact .inr ⟨rfl, _, rfl, rfl⟩
  case callAddr nnn =>
    simp only [State.raises, exec, execCallAddr]
    by_cases h : s.sp.val = 16
    · rw [State.push_of_full s _ h, if_pos h]; exact .inl ⟨_, rfl, rfl⟩
    · rw [State.push_of_lt s _ (by omega), if_neg h]; exact .inr ⟨rfl, _, rfl, rfl⟩
  case skp x =>
    simp only [State.raises, exec, execSkp]
    by_cases h : (s.getV x).toNat > 0xF
    · rw [keyIndex_of_gt _ h, if_pos h]; exact .inl ⟨_, rfl, rfl⟩
    · rw [keyIndex_of_lt _ (by omega), if_neg h]; exact .inr ⟨rfl, _, rfl, by show (s.skipIf _).fault = _; rw [State.skipIf_eq]; rfl⟩
  case sknp x =>
    simp only [State.raises, exec, execSknp]
    by_cases h : (s.getV x).toNat > 0xF
    · rw [keyIndex_of_gt _ h, if_pos h]; exact .inl ⟨_, rfl, rfl⟩
    · rw [keyIndex_of_lt _ (by omega), if_neg h]; exact .inr ⟨rfl, _, rfl, by show (s.skipIf _).fault = _; rw [State.skipIf_eq]; rfl⟩
  case drw x y n =>
    simp only [State.raises, exec, execDrw, State.checkRange_eq]
    split
    · exact .inl ⟨_, rfl, rfl⟩
    · exact .inr ⟨rfl, _, rfl, rfl⟩
  case ldBcd x =>
    simp only [State.raises, exec, execLdBcd, State.checkRange_eq]
    by_cases h : s.i.toNat + 3 > 0x1000
    · rw [if_pos h, if_pos ⟨by decide, h⟩]; exact .inl ⟨_, rfl, rfl⟩
    · rw [if_neg h, if_neg (fun e => h e.2)]; exact .inr ⟨rfl, _, rfl, by rw [State.writeBytes_eq]⟩
  case storeRegs x =>
    simp only [State.raises, exec, execStoreRegs, State.checkRange_eq]
    by_cases h : s.i.toNat + x.val + 1 > 0x1000
    · rw [if_pos h, if_pos ⟨by omega, by omega⟩]; exact .inl ⟨_, rfl, rfl⟩
    · rw [if_neg h, if_neg (fun e => h (by omega))]; exact .inr ⟨rfl, _, rfl, by rw [State.writeBytes_eq]⟩
  case loadRegs x =>
    simp only [State.raises, exec, execLoadRegs, State.checkRange_eq]
    by_cases h : s.i.toNat + x.val + 1 > 0x1000
    · rw [if_pos h, if_pos ⟨by omega, by omega⟩]; exact .inl ⟨_, rfl, rfl⟩
    · rw [if_neg h, if_neg (fun e => h (by omega))]; exact .inr ⟨rfl, _, rfl, by rw [State.loadBlock_eq]⟩
  case ldRegK x =>
    simp only [State.raises, exec, execLdRegK]
    split <;> exact .inr ⟨trivial, _, rfl, rfl⟩
  all_goals first
    | exact .inr ⟨rfl, _, rfl, rfl⟩
    | exact .inr ⟨rfl, _, rfl, by rw [State.skipIf_eq]; rfl⟩
    | exact .inr ⟨rfl, _, rfl, by rw [State.flagThenResult_eq]⟩

/-- What an instruction raises does not depend on OPCODE and PC, so it can be read off the state before the fetch. -/
theorem State.raises_fetched (s : State) (i : Instr) : s.fetched.raises i = s.raises i := by
  cases i <;> rfl

end Sys2Proof.Machine
end

