-- ==== Sys2Proof/Laws/PerInstr.lean ====
section
/-! SUPPORT. Statements about every instruction as syntax, one lemma per constructor, and the fields of an encoded word. -/

namespace Sys2Proof.Laws

/-- An instruction's standard word selects the instruction's row of R83, the row is one of the 34, and decode reads the
instruction back from the word. -/
def RoundTrip.Statement (i : Instr) : Prop :=
  (opcodeRow i).selectedBy (encode i) ∧ opcodeRow i ∈ opcodeRows ∧ decode (encode i) = .instr i

section Fields

variable (fam : Nibble) (nnn : Addr12) (x y : Reg) (kk : Byte) (n : Nibble)

/-- The top nibble of a word made of two nibbles and a byte. -/
theorem extract_top (a b : Nibble) (d : Byte) : ((a ++ b : BitVec 8) ++ d : Word).extractLsb' 12 4 = a :=
  (BitVec.extractLsb'_append_eq_of_le (v := 8) (w := 8) (by decide)).trans BitVec.extractLsb'_append_eq_left

/-- The second nibble of a word made of two nibbles and a byte. -/
theorem extract_second (a b : Nibble) (d : Byte) : ((a ++ b : BitVec 8) ++ d : Word).extractLsb' 8 4 = b :=
  (BitVec.extractLsb'_append_eq_of_le (v := 8) (w := 8) (by decide)).trans BitVec.extractLsb'_append_eq_right

/-- The third nibble of a word made of a byte and two nibbles. -/
theorem extract_third (a : Byte) (b c : Nibble) : (a ++ (b ++ c : BitVec 8) : Word).extractLsb' 4 4 = b :=
  (BitVec.extractLsb'_append_eq_of_add_le (v := 8) (w := 8) (by decide)).trans BitVec.extractLsb'_append_eq_left

/-- The low nibble of a word made of a byte and two nibbles. -/
theorem extract_low (a : Byte) (b c : Nibble) : (a ++ (b ++ c : BitVec 8) : Word).extractLsb' 0 4 = c :=
  (BitVec.extractLsb'_append_eq_of_add_le (v := 8) (w := 8) (by decide)).trans BitVec.extractLsb'_append_eq_right

@[simp] theorem family_encodeA : family (encodeA fam nnn) = fam := BitVec.extractLsb'_append_eq_left

@[simp] theorem fieldNNN_encodeA : fieldNNN (encodeA fam nnn) = nnn := BitVec.extractLsb'_append_eq_right

@[simp] theorem family_encodeXK : family (encodeXK fam x kk) = fam := extract_top fam (.ofFin x) kk

@[simp] theorem fieldX_encodeXK : fieldX (encodeXK fam x kk) = x :=
  congrArg BitVec.toFin (extract_second fam (.ofFin x) kk)

@[simp] theorem fieldKK_encodeXK : fieldKK (encodeXK fam x kk) = kk := BitVec.extractLsb'_append_eq_right

@[simp] theorem family_encodeXYN : family (encodeXYN fam x y n) = fam := extract_top fam (.ofFin x) _

@[simp] theorem fieldX_encodeXYN : fieldX (encodeXYN fam x y n) = x :=
  congrArg BitVec.toFin (extract_second fam (.ofFin x) _)

@[simp] theorem fieldY_encodeXYN : fieldY (encodeXYN fam x y n) = y :=
  congrArg BitVec.toFin (extract_third _ (.ofFin y) n)

@[simp] theorem fieldN_encodeXYN : fieldN (encodeXYN fam x y n) = n := extract_low _ (.ofFin y) n

/-- The low nibble of a format XK word is its byte's low nibble. -/
@[simp] theorem fieldN_encodeXK : fieldN (encodeXK fam x kk) = kk.extractLsb' 0 4 :=
  BitVec.extractLsb'_append_eq_of_add_le (v := 8) (w := 8) (by decide)

/-- What a mask of the top nibble leaves of a format A word. -/
theorem encodeA_and : encodeA fam nnn &&& 0xF000 = encodeA fam 0 := by
  have h : (0xF000 : Word) = encodeA 0xF 0 := by decide
  rw [h, encodeA, encodeA, encodeA]
  refine (BitVec.and_append (x₁ := fam) (x₂ := 0xF#4) (y₁ := nnn) (y₂ := 0#12)).trans ?_
  rw [BitVec.and_zero, show fam &&& 0xF#4 = fam from BitVec.and_allOnes]
  rfl

/-- What a mask of the top nibble and of bits `m` of the low byte leaves of a format XK word. -/
theorem encodeXK_and (m : Byte) : encodeXK fam x kk &&& encodeXK 0xF 0 m = encodeXK fam 0 (kk &&& m) := by
  rw [encodeXK, encodeXK, encodeXK]
  refine BitVec.and_append.trans ?_
  rw [BitVec.and_append, show fam &&& (0xF : Nibble) = fam from BitVec.and_allOnes]
  rw [show (BitVec.ofFin x : Nibble) &&& BitVec.ofFin (0 : Reg) = BitVec.ofFin (0 : Reg) from BitVec.and_zero]

/-- A format XYN word as a format XK word. -/
theorem encodeXYN_eq : encodeXYN fam x y n = encodeXK fam x (BitVec.ofFin (w := 4) y ++ n) := rfl

/-- What a mask of the low nibble leaves of the low byte of a format XYN word. -/
theorem lowByte_and (m : Nibble) :
    ((BitVec.ofFin y : Nibble) ++ n : BitVec 8) &&& ((0#4 ++ m : BitVec 8)) = (0#4 ++ (n &&& m) : BitVec 8) := by
  rw [BitVec.and_append, BitVec.and_zero]

/-- The row check of a format XK row whose key is masked by `m`. -/
theorem row_encodeXK (m v : Byte) (mask value : Word) (hm : mask = encodeXK 0xF 0 m) (hk : kk &&& m = v)
    (hv : value = encodeXK fam 0 v) : (OpcodeRow.mk value mask).selectedBy (encodeXK fam x kk) := by
  show encodeXK fam x kk &&& mask = value
  rw [hm, encodeXK_and, hk, hv]

/-- The row check of a format XYN row whose key is masked by `m`. -/
theorem row_encodeXYN (m v : Nibble) (mask value : Word) (hm : mask = encodeXK 0xF 0 (0#4 ++ m)) (hk : n &&& m = v)
    (hv : value = encodeXK fam 0 (0#4 ++ v)) : (OpcodeRow.mk value mask).selectedBy (encodeXYN fam x y n) := by
  show encodeXYN fam x y n &&& mask = value
  rw [hm, encodeXYN_eq, encodeXK_and, lowByte_and, hk, hv]

end Fields

/-! ### One lemma per constructor -/

theorem RoundTrip.cls : RoundTrip.Statement .cls := by
  refine ⟨by decide, by simp [opcodeRow, opcodeRows], by decide⟩

theorem RoundTrip.ret : RoundTrip.Statement .ret := by
  refine ⟨by decide, by simp [opcodeRow, opcodeRows], by decide⟩

theorem RoundTrip.jpAddr (nnn : Addr12) : RoundTrip.Statement (.jpAddr nnn) := by
  refine ⟨encodeA_and _ nnn, by simp [opcodeRow, opcodeRows], ?_⟩
  simp [decode, encode]

theorem RoundTrip.callAddr (nnn : Addr12) : RoundTrip.Statement (.callAddr nnn) := by
  refine ⟨encodeA_and _ nnn, by simp [opcodeRow, opcodeRows], ?_⟩
  simp [decode, encode]

theorem RoundTrip.seByte (x : Reg) (kk : Byte) : RoundTrip.Statement (.seByte x kk) := by
  refine ⟨row_encodeXK _ x kk 0 0 _ _ (by decide) BitVec.and_zero (by decide), by simp [opcodeRow, opcodeRows], ?_⟩
  simp [decode, encode]

theorem RoundTrip.sneByte (x : Reg) (kk : Byte) : RoundTrip.Statement (.sneByte x kk) := by
  refine ⟨row_encodeXK _ x kk 0 0 _ _ (by decide) BitVec.and_zero (by decide), by simp [opcodeRow, opcodeRows], ?_⟩
  simp [decode, encode]

theorem RoundTrip.seReg (x y : Reg) : RoundTrip.Statement (.seReg x y) := by
  refine ⟨row_encodeXYN _ x y _ 0 _ _ _ (by decide) rfl (by decide), by simp [opcodeRow, opcodeRows], ?_⟩
  simp [decode, encode]

theorem RoundTrip.ldByte (x : Reg) (kk : Byte) : RoundTrip.Statement (.ldByte x kk) := by
  refine ⟨row_encodeXK _ x kk 0 0 _ _ (by decide) BitVec.and_zero (by decide), by simp [opcodeRow, opcodeRows], ?_⟩
  simp [decode, encode]

theorem RoundTrip.addByte (x : Reg) (kk : Byte) : RoundTrip.Statement (.addByte x kk) := by
  refine ⟨row_encodeXK _ x kk 0 0 _ _ (by decide) BitVec.and_zero (by decide), by simp [opcodeRow, opcodeRows], ?_⟩
  simp [decode, encode]

theorem RoundTrip.ldReg (x y : Reg) : RoundTrip.Statement (.ldReg x y) := by
  refine ⟨row_encodeXYN _ x y _ 0xF _ _ _ (by decide) rfl (by decide), by simp [opcodeRow, opcodeRows], ?_⟩
  simp [decode, encode, decodeFamily8]

theorem RoundTrip.orReg (x y : Reg) : RoundTrip.Statement (.orReg x y) := by
  refine ⟨row_encodeXYN _ x y _ 0xF _ _ _ (by decide) rfl (by decide), by simp [opcodeRow, opcodeRows], ?_⟩
  simp [decode, encode, decodeFamily8]

theorem RoundTrip.andReg (x y : Reg) : RoundTrip.Statement (.andReg x y) := by
  refine ⟨row_encodeXYN _ x y _ 0xF _ _ _ (by decide) rfl (by decide), by simp [opcodeRow, opcodeRows], ?_⟩
  simp [decode, encode, decodeFamily8]

theorem RoundTrip.xorReg (x y : Reg) : RoundTrip.Statement (.xorReg x y) := by
  refine ⟨row_encodeXYN _ x y _ 0xF _ _ _ (by decide) rfl (by decide), by simp [opcodeRow, opcodeRows], ?_⟩
  simp [decode, encode, decodeFamily8]

theorem RoundTrip.addReg (x y : Reg) : RoundTrip.Statement (.addReg x y) := by
  refine ⟨row_encodeXYN _ x y _ 0xF _ _ _ (by decide) rfl (by decide), by simp [opcodeRow, opcodeRows], ?_⟩
  simp [decode, encode, decodeFamily8]

theorem RoundTrip.subReg (x y : Reg) : RoundTrip.Statement (.subReg x y) := by
  refine ⟨row_encodeXYN _ x y _ 0xF _ _ _ (by decide) rfl (by decide), by simp [opcodeRow, opcodeRows], ?_⟩
  simp [decode, encode, decodeFamily8]

theorem RoundTrip.shrReg (x y : Reg) : RoundTrip.Statement (.shrReg x y) := by
  refine ⟨row_encodeXYN _ x y _ 0xF _ _ _ (by decide) rfl (by decide), by simp [opcodeRow, opcodeRows], ?_⟩
  simp [decode, encode, decodeFamily8]

theorem RoundTrip.subnReg (x y : Reg) : RoundTrip.Statement (.subnReg x y) := by
  refine ⟨row_encodeXYN _ x y _ 0xF _ _ _ (by decide) rfl (by decide), by simp [opcodeRow, opcodeRows], ?_⟩
  simp [decode, encode, decodeFamily8]

theorem RoundTrip.shlReg (x y : Reg) : RoundTrip.Statement (.shlReg x y) := by
  refine ⟨row_encodeXYN _ x y _ 0xF _ _ _ (by decide) rfl (by decide), by simp [opcodeRow, opcodeRows], ?_⟩
  simp [decode, encode, decodeFamily8]

theorem RoundTrip.sneReg (x y : Reg) : RoundTrip.Statement (.sneReg x y) := by
  refine ⟨row_encodeXYN _ x y _ 0 _ _ _ (by decide) rfl (by decide), by simp [opcodeRow, opcodeRows], ?_⟩
  simp [decode, encode]

theorem RoundTrip.ldI (nnn : Addr12) : RoundTrip.Statement (.ldI nnn) := by
  refine ⟨encodeA_and _ nnn, by simp [opcodeRow, opcodeRows], ?_⟩
  simp [decode, encode]

theorem RoundTrip.jpV0 (nnn : Addr12) : RoundTrip.Statement (.jpV0 nnn) := by
  refine ⟨encodeA_and _ nnn, by simp [opcodeRow, opcodeRows], ?_⟩
  simp [decode, encode]

theorem RoundTrip.rndByte (x : Reg) (kk : Byte) : RoundTrip.Statement (.rndByte x kk) := by
  refine ⟨row_encodeXK _ x kk 0 0 _ _ (by decide) BitVec.and_zero (by decide), by simp [opcodeRow, opcodeRows], ?_⟩
  simp [decode, encode]

theorem RoundTrip.drw (x y : Reg) (n : Nibble) : RoundTrip.Statement (.drw x y n) := by
  refine ⟨row_encodeXYN _ x y n 0 0 _ _ (by decide) BitVec.and_zero (by decide), by simp [opcodeRow, opcodeRows], ?_⟩
  simp [decode, encode]

theorem RoundTrip.skp (x : Reg) : RoundTrip.Statement (.skp x) := by
  refine ⟨row_encodeXK _ x _ 0x0F _ _ _ (by decide) rfl (by decide), by simp [opcodeRow, opcodeRows], ?_⟩
  simp [decode, encode, decodeFamilyE]

theorem RoundTrip.sknp (x : Reg) : RoundTrip.Statement (.sknp x) := by
  refine ⟨row_encodeXK _ x _ 0x0F _ _ _ (by decide) rfl (by decide), by simp [opcodeRow, opcodeRows], ?_⟩
  simp [decode, encode, decodeFamilyE]

theorem RoundTrip.ldRegDT (x : Reg) : RoundTrip.Statement (.ldRegDT x) := by
  refine ⟨row_encodeXK _ x _ 0xFF _ _ _ (by decide) rfl (by decide), by simp [opcodeRow, opcodeRows], ?_⟩
  simp [decode, encode, decodeFamilyF]

theorem RoundTrip.ldRegK (x : Reg) : RoundTrip.Statement (.ldRegK x) := by
  refine ⟨row_encodeXK _ x _ 0xFF _ _ _ (by decide) rfl (by decide), by simp [opcodeRow, opcodeRows], ?_⟩
  simp [decode, encode, decodeFamilyF]

theorem RoundTrip.ldDTReg (x : Reg) : RoundTrip.Statement (.ldDTReg x) := by
  refine ⟨row_encodeXK _ x _ 0xFF _ _ _ (by decide) rfl (by decide), by simp [opcodeRow, opcodeRows], ?_⟩
  simp [decode, encode, decodeFamilyF]

theorem RoundTrip.ldSTReg (x : Reg) : RoundTrip.Statement (.ldSTReg x) := by
  refine ⟨row_encodeXK _ x _ 0xFF _ _ _ (by decide) rfl (by decide), by simp [opcodeRow, opcodeRows], ?_⟩
  simp [decode, encode, decodeFamilyF]

theorem RoundTrip.addI (x : Reg) : RoundTrip.Statement (.addI x) := by
  refine ⟨row_encodeXK _ x _ 0xFF _ _ _ (by decide) rfl (by decide), by simp [opcodeRow, opcodeRows], ?_⟩
  simp [decode, encode, decodeFamilyF]

theorem RoundTrip.ldFont (x : Reg) : RoundTrip.Statement (.ldFont x) := by
  refine ⟨row_encodeXK _ x _ 0xFF _ _ _ (by decide) rfl (by decide), by simp [opcodeRow, opcodeRows], ?_⟩
  simp [decode, encode, decodeFamilyF]

theorem RoundTrip.ldBcd (x : Reg) : RoundTrip.Statement (.ldBcd x) := by
  refine ⟨row_encodeXK _ x _ 0xFF _ _ _ (by decide) rfl (by decide), by simp [opcodeRow, opcodeRows], ?_⟩
  simp [decode, encode, decodeFamilyF]

theorem RoundTrip.storeRegs (x : Reg) : RoundTrip.Statement (.storeRegs x) := by
  refine ⟨row_encodeXK _ x _ 0xFF _ _ _ (by decide) rfl (by decide), by simp [opcodeRow, opcodeRows], ?_⟩
  simp [decode, encode, decodeFamilyF]

theorem RoundTrip.loadRegs (x : Reg) : RoundTrip.Statement (.loadRegs x) := by
  refine ⟨row_encodeXK _ x _ 0xFF _ _ _ (by decide) rfl (by decide), by simp [opcodeRow, opcodeRows], ?_⟩
  simp [decode, encode, decodeFamilyF]

end Sys2Proof.Laws
end

