-- ==== Sys2Proof/Laws/Step.lean ====
section
/-! SUPPORT. Everything a step can do, said once. -/

namespace Sys2Proof.Machine

/-- The fetch is out of range exactly when `PC > 0xFFE`. -/
theorem State.badFetch_eq (s : State) :
    s.badFetch = if s.pc.toNat > 0xFFE then some (max s.pc.toNat 0x1000) else none := by
  unfold State.badFetch
  split
  · rw [if_pos (by omega), Nat.max_eq_left (by omega)]
  · split
    · rw [if_pos (by omega), Nat.max_eq_right (by omega)]
      congr 1
      omega
    · rw [if_neg (by omega)]

/-- A step that answers a next state: the core was halted, or the fetch failed, or a handler ran and its state was finished. -/
theorem step_cases {s t : State} (h : step s = .next t) :
    (s.halted = true ∧ t = s) ∨
    (s.halted = false ∧ ∃ a, s.badFetch = some a ∧ t = s.fetchFault a) ∨
    (s.halted = false ∧ s.badFetch = none ∧
      ∃ u, execute (decode s.fetchWord) s.fetched = .next u ∧ t = s.finish u) := by
  unfold step at h
  split at h
  · rename_i hh
    exact .inl ⟨hh, (Host.Outcome.next.inj h).symm⟩
  · rename_i hh
    have hh : s.halted = false := by simpa using hh
    split at h
    · rename_i a ha
      exact .inr (.inl ⟨hh, a, ha, (Host.Outcome.next.inj h).symm⟩)
    · rename_i hb
      refine .inr (.inr ⟨hh, hb, ?_⟩)
      cases hx : execute (decode s.fetchWord) s.fetched with
      | next u =>
        rw [hx] at h
        exact ⟨u, rfl, (Host.Outcome.next.inj h).symm⟩
      | fault r => cases r
      | refused r =>
        rw [hx] at h
        cases h

/-- A step of a running core whose fetch is in range runs the handler. -/
theorem step_of_running (s : State) (hh : s.halted = false) (hb : s.badFetch = none) :
    step s = finishResult s (execute (decode s.fetchWord) s.fetched) := by
  unfold step
  rw [if_neg (by simp [hh]), hb]

/-- A step of a running core whose word decodes to an instruction runs it, and finishes. -/
theorem step_of_instr (s : State) (i : Instr) (hh : s.halted = false) (hb : s.badFetch = none)
    (hd : decode s.fetchWord = .instr i) : step s = finishResult s (exec i s.fetched) := by
  rw [step_of_running s hh hb, hd]
  rfl

/-- A step of a running core whose word is unmapped fetches and counts the timers. -/
theorem step_of_nop (s : State) (hh : s.halted = false) (hb : s.badFetch = none) (hd : decode s.fetchWord = .nop) :
    step s = .next (s.finish s.fetched) := by
  rw [step_of_running s hh hb, hd]
  rfl

/-- A timer's decrement as a number. -/
theorem tickTimer_toNat (b : Byte) : (tickTimer b).toNat = b.toNat - 1 := by
  revert b
  decide

/-- The end of a step that did not fault. -/
theorem State.finish_of_running (s t : State) (h : t.halted = false) : s.finish t = t.tick := by
  simp [State.finish, h]

/-- The end of a step whose handler raised a fault. -/
theorem State.finish_raise (s : State) (r : Raise) :
    s.finish (s.fetched.raise r) =
      { s with fault := { cause := r.cause.code, pc := s.pc, opcode := s.fetchWord, addr := r.info } } := by
  have h : (s.fetched.raise r).halted = true := by
    obtain ⟨c, _⟩ := r
    cases c <;> rfl
  simp [State.finish, h]

/-- One more step of a run. -/
theorem run_succ (M : Host.Core) (k : Nat) (s t : M.State) (h : M.step s = .next t) : M.run (k + 1) s = M.run k t := by
  rw [Host.Core.run, h]

end Sys2Proof.Machine
end

