-- ==== Sys2Proof/Tests/Slice0.lean ====
section
/-! SUPPORT. The model's own tests: the checks of WellFormed, one written-out word per instruction (30_encoding.md R72, R83),
vectors of 95_test_vectors.md (named in each comment), and a witness for every statement that has hypotheses. -/

namespace Sys2Proof.Tests

open Sys2Proof.Machine

/-! ### Helpers -/

/-- The state after one step from `s` with the word `w` placed where it fetches. -/
def after (w : Nat) (s : State) : State :=
  match step (s.withFetchWord 16 w) with
  | .next t => t
  | _ => s

/-- The reset state with two registers set. -/
def regs (x : Reg) (a : Byte) (y : Reg) (b : Byte) : State := (State.reset.setV x a).setV y b

/-- The reset state with `I` set. -/
def index (a : Word) : State := State.reset.setI a

/-- The state under a setting of `ALIAS_ORDER` and `SHIFT_SOURCE`. -/
def setting (order : AliasOrder) (src : ShiftSource) (s : State) : State :=
  { s with params := { s.params with aliasOrder := order, shiftSource := src } }

/-- The state with the next draw fixed. -/
def drawing (b : Byte) (s : State) : State := { s with rng := { s.rng with forced := [b] } }

/-- The state with `n` addresses on the stack, the topmost `a`. -/
def stacked (n : Fin 17) (a : Word) (s : State) : State := { s with sp := n, stack := Vector.replicate 16 a }

/-- The state with one key pressed. -/
def pressing (k : Fin 16) (s : State) : State := { s with keys := s.keys.set k.val true k.isLt }

/-- The state with the one byte `b` at 0x300 and `I` there. -/
def sprite (b : Byte) (s : State) : State := (s.setI 0x300).writeByte 0x300 b

/-- The cells that are on, among those listed. -/
def lit (s : State) (cells : List (Fin 64 × Fin 32)) : List (Fin 64 × Fin 32) := cells.filter fun p => s.fb.get p.1 p.2

/-- The image of `n` zero bytes. -/
def zeros (n : Nat) : List Byte := List.replicate n 0

/-! ### WellFormed -/

theorem test_params_ill_formed : ¬ Params.WellFormed { defaultParams with fontBase := 0x1B1 } := by decide
theorem test_params_well_formed : Params.WellFormed { defaultParams with fontBase := 0x1B0 } := by decide
theorem test_image_ill_formed : ¬ imageWellFormed (zeros 3585) := by
  rw [imageWellFormed, zeros, List.length_replicate]
  decide
theorem test_image_well_formed : imageWellFormed (zeros 3584) := by
  rw [imageWellFormed, zeros, List.length_replicate]

/-! ### Decode: one word per row, its fields written out, most significant first -/

theorem test_decode_cls : decode (0b0000_0000_1110_0000 : Word) = .instr .cls := by decide
theorem test_decode_ret : decode (0b0000_0000_1110_1110 : Word) = .instr .ret := by decide
theorem test_decode_jpAddr : decode (0b0001_1010_1011_1100 : Word) = .instr (.jpAddr 0xABC) := by decide
theorem test_decode_callAddr : decode (0b0010_0100_0000_0001 : Word) = .instr (.callAddr 0x401) := by decide
theorem test_decode_seByte : decode (0b0011_0011_0100_0010 : Word) = .instr (.seByte 3 0x42) := by decide
theorem test_decode_sneByte : decode (0b0100_0011_0100_0010 : Word) = .instr (.sneByte 3 0x42) := by decide
theorem test_decode_seReg : decode (0b0101_0001_0010_0000 : Word) = .instr (.seReg 1 2) := by decide
theorem test_decode_ldByte : decode (0b0110_1010_0101_1100 : Word) = .instr (.ldByte 10 0x5C) := by decide
theorem test_decode_addByte : decode (0b0111_1111_0000_0001 : Word) = .instr (.addByte 15 0x01) := by decide
theorem test_decode_ldReg : decode (0b1000_0001_0010_0000 : Word) = .instr (.ldReg 1 2) := by decide
theorem test_decode_orReg : decode (0b1000_0001_0010_0001 : Word) = .instr (.orReg 1 2) := by decide
theorem test_decode_andReg : decode (0b1000_0001_0010_0010 : Word) = .instr (.andReg 1 2) := by decide
theorem test_decode_xorReg : decode (0b1000_0001_0010_0011 : Word) = .instr (.xorReg 1 2) := by decide
theorem test_decode_addReg : decode (0b1000_0001_0010_0100 : Word) = .instr (.addReg 1 2) := by decide
theorem test_decode_subReg : decode (0b1000_0001_0010_0101 : Word) = .instr (.subReg 1 2) := by decide
theorem test_decode_shrReg : decode (0b1000_0001_0010_0110 : Word) = .instr (.shrReg 1 2) := by decide
theorem test_decode_subnReg : decode (0b1000_0001_0010_0111 : Word) = .instr (.subnReg 1 2) := by decide
theorem test_decode_shlReg : decode (0b1000_0001_0010_1110 : Word) = .instr (.shlReg 1 2) := by decide
theorem test_decode_sneReg : decode (0b1001_0001_0010_0000 : Word) = .instr (.sneReg 1 2) := by decide
theorem test_decode_ldI : decode (0b1010_0010_1111_0000 : Word) = .instr (.ldI 0x2F0) := by decide
theorem test_decode_jpV0 : decode (0b1011_1111_0000_0001 : Word) = .instr (.jpV0 0xF01) := by decide
theorem test_decode_rndByte : decode (0b1100_0001_1010_0101 : Word) = .instr (.rndByte 1 0xA5) := by decide
theorem test_decode_drw : decode (0b1101_1010_1011_0101 : Word) = .instr (.drw 10 11 5) := by decide
theorem test_decode_skp : decode (0b1110_0101_1001_1110 : Word) = .instr (.skp 5) := by decide
theorem test_decode_sknp : decode (0b1110_0101_1010_0001 : Word) = .instr (.sknp 5) := by decide
theorem test_decode_ldRegDT : decode (0b1111_0011_0000_0111 : Word) = .instr (.ldRegDT 3) := by decide
theorem test_decode_ldRegK : decode (0b1111_0010_0000_1010 : Word) = .instr (.ldRegK 2) := by decide
theorem test_decode_ldDTReg : decode (0b1111_0100_0001_0101 : Word) = .instr (.ldDTReg 4) := by decide
theorem test_decode_ldSTReg : decode (0b1111_0100_0001_1000 : Word) = .instr (.ldSTReg 4) := by decide
theorem test_decode_addI : decode (0b1111_0001_0001_1110 : Word) = .instr (.addI 1) := by decide
theorem test_decode_ldFont : decode (0b1111_0010_0010_1001 : Word) = .instr (.ldFont 2) := by decide
theorem test_decode_ldBcd : decode (0b1111_0011_0011_0011 : Word) = .instr (.ldBcd 3) := by decide
theorem test_decode_storeRegs : decode (0b1111_0011_0101_0101 : Word) = .instr (.storeRegs 3) := by decide
theorem test_decode_loadRegs : decode (0b1111_1111_0110_0101 : Word) = .instr (.loadRegs 15) := by decide

/-- Vectors V1, V5, V8 to V12: words no row selects. -/
theorem test_decode_unmapped : [0x8008, 0x0123, 0xE59F, 0x800C, 0xF100, 0xF1FF, 0xF130].map decode = List.replicate 7 .nop := by
  decide

/-- R77, R78, R79: the bits decode ignores (vectors V3, V4, V6, V7, V13, V14). -/
theorem test_decode_ignored_bits :
    [0x0000, 0x0FF0, 0x010E, 0xE50E, 0x512F, 0x912A].map decode =
      [.instr .cls, .instr .cls, .instr .ret, .instr (.skp 5), .instr (.seReg 1 2), .instr (.sneReg 1 2)] := by decide

/-- R51, R71: two bytes, high byte first, and the rest of the list is handed back; one byte is no word. -/
theorem test_decode_bytes :
    decodeBytes [0x6A, 0x5C, 0x12] = .ok (.instr (.ldByte 10 0x5C), [0x12]) ∧ decodeBytes [0x6A] = .error .truncated ∧
    decodeTableWord 16 0x6A5C = some (.ldByte 10 0x5C) ∧ decodeTableWord 16 0x8008 = none := by decide

/-- Program L3.5 and a data byte, assembled (R86, R87). -/
theorem test_assemble : assemble [.word (.callAddr 0x200), .db 0x3C] = [0x22, 0x00, 0x3C] := by decide

/-! ### Memory -/

/-- A write of what an unlisted address reads as leaves no entry; the font is there at reset (R36, R42). -/
theorem test_memory_canonical :
    (State.reset.writeByte 0x300 7).mem = [(0x300, 7)] ∧ ((State.reset.writeByte 0x300 7).writeByte 0x300 0).mem = [] ∧
    State.reset.readByte 0x050 = 0xF0 ∧ State.reset.readByte 0x09F = 0x80 ∧ State.reset.readByte 0x0A0 = 0 := by decide

/-! ### One step: the vectors of 95_test_vectors.md -/

/-- V2: an unmapped word counts the timers. -/
theorem test_nop_ticks :
    let t := after 0x8008 { State.reset with dt := 1, st := 2 }
    t.pc = 0x202 ∧ t.dt = 0 ∧ t.st = 1 ∧ t.opcode = 0x8008 := by decide

/-- V16, V17: the fetch faults. -/
theorem test_fetch_fault :
    step { State.reset with pc := 0xFFF, dt := 4 } =
      .next { State.reset with pc := 0xFFF, dt := 4, fault := { cause := 1, pc := 0xFFF, opcode := 0, addr := 0x1000 } } ∧
    step { State.reset with pc := 0x1000, dt := 4 } =
      .next { State.reset with pc := 0x1000, dt := 4, fault := { cause := 1, pc := 0x1000, opcode := 0, addr := 0x1000 } } :=
  ⟨rfl, rfl⟩

/-- H1: a halted core does nothing. -/
theorem test_halted :
    step { State.reset with dt := 9, st := 2, fault := { cause := 3, pc := 0x200, opcode := 0x2400, addr := 0 } } =
      .next { State.reset with dt := 9, st := 2, fault := { cause := 3, pc := 0x200, opcode := 0x2400, addr := 0 } } := rfl

/-- D1. -/
theorem test_cls : (after 0x00E0 { State.reset with fb := State.reset.fb.toggle 63 31 }).fb = Framebuffer.blank := by decide

/-- C6: RET pops and does not clear the slot. -/
theorem test_ret :
    let t := after 0x00EE (stacked 2 0x30A State.reset)
    t.pc = 0x30A ∧ t.sp = 1 ∧ t.stack[1] = 0x30A := by decide

/-- C7. -/
theorem test_ret_underflow :
    let t := after 0x00EE State.reset
    t.fault = { cause := 4, pc := 0x200, opcode := 0x00EE, addr := 0 } ∧ t.pc = 0x200 ∧ t.opcode = 0 := by decide

/-- C1. -/
theorem test_jpAddr : (after 0x1ABC State.reset).pc = 0xABC := by decide

/-- C4: the sixteenth push succeeds. -/
theorem test_callAddr :
    let t := after 0x2400 (stacked 15 0x111 State.reset)
    t.pc = 0x400 ∧ t.sp = 16 ∧ t.stack[15] = 0x202 ∧ t.stack[14] = 0x111 := by decide

/-- C5. -/
theorem test_callAddr_overflow :
    (after 0x2400 (stacked 16 0 State.reset)).fault = { cause := 3, pc := 0x200, opcode := 0x2400, addr := 0 } := by decide

/-- C8, C9. -/
theorem test_seByte : (after 0x3342 (regs 3 0x42 0 0)).pc = 0x204 ∧ (after 0x3343 (regs 3 0x42 0 0)).pc = 0x202 := by decide

/-- C10, C11. -/
theorem test_sneByte : (after 0x4342 (regs 3 0x42 0 0)).pc = 0x202 ∧ (after 0x4343 (regs 3 0x42 0 0)).pc = 0x204 := by decide

/-- C12, C13. -/
theorem test_seReg : (after 0x5120 (regs 1 7 2 7)).pc = 0x204 ∧ (after 0x5120 (regs 1 7 2 8)).pc = 0x202 := by decide

/-- C14, C15. -/
theorem test_sneReg : (after 0x9120 (regs 1 7 2 8)).pc = 0x204 ∧ (after 0x9120 (regs 1 7 2 7)).pc = 0x202 := by decide

/-- C17: the sum is not masked to 12 bits. -/
theorem test_jpV0 : (after 0xBF01 (regs 0 0xFF 1 0)).pc = 0x1000 := by decide

/-- A1. -/
theorem test_ldByte : (after 0x6A5C State.reset).getV 10 = 0x5C := by decide

/-- A3: the wrap sets no flag. -/
theorem test_addByte :
    let t := after 0x7001 (regs 0 0xFF 15 0x33)
    t.getV 0 = 0 ∧ t.getV 15 = 0x33 := by decide

/-- A5. -/
theorem test_ldReg : (after 0x8120 (regs 1 0 2 0x9A)).getV 1 = 0x9A := by decide

/-- A6: VF is not reset. -/
theorem test_orReg :
    let t := after 0x8121 ((regs 1 0xF0 2 0x0F).setV 15 0x55)
    t.getV 1 = 0xFF ∧ t.getV 15 = 0x55 := by decide

/-- A7. -/
theorem test_andReg : (after 0x8122 (regs 1 0xF0 2 0x3C)).getV 1 = 0x30 := by decide

/-- A8. -/
theorem test_xorReg : (after 0x8123 (regs 1 0xFF 2 0x0F)).getV 1 = 0xF0 := by decide

/-- A13: a carry out of 256 exactly. -/
theorem test_addReg :
    let t := after 0x8014 (regs 0 0x80 1 0x80)
    t.getV 0 = 0 ∧ t.getV 15 = 1 := by decide

/-- A14, A15: VF as destination and as source. -/
theorem test_addReg_flag :
    (after 0x8F14 (regs 15 0xFA 1 0x0A)).getV 15 = 0x04 ∧ (after 0x80F4 (regs 0 5 15 0xFE)).getV 0 = 0x03 := by decide

/-- A18, A19: a borrow, and equal operands. -/
theorem test_subReg :
    (after 0x8125 (regs 1 3 2 10)).getV 1 = 0xF9 ∧ (after 0x8125 (regs 1 3 2 10)).getV 15 = 0 ∧
    (after 0x8125 (regs 1 5 2 5)).getV 15 = 0 := by decide

/-- A20, A21: VF as destination under both orders. -/
theorem test_subReg_flag :
    (after 0x8F15 (regs 15 7 1 5)).getV 15 = 0xFC ∧ (after 0x8F15 (setting .snapshot .vx (regs 15 7 1 5))).getV 15 = 0x02 := by
  decide

/-- A36. -/
theorem test_shrReg :
    let t := after 0x8306 (regs 3 0xFF 4 0)
    t.getV 3 = 0x7F ∧ t.getV 15 = 1 := by decide

/-- A39: the source is Vy. A40, A41: VF as source under both orders. -/
theorem test_shrReg_settings :
    (after 0x8346 (setting .sequential .vy (regs 3 8 4 0xFF))).getV 3 = 0x7F ∧ (after 0x8F06 (regs 15 0x0B 0 0)).getV 15 = 0 ∧
    (after 0x8F06 (setting .snapshot .vx (regs 15 0x0B 0 0))).getV 15 = 5 := by decide

/-- R129, from the rule: 10 - 3 with its flag, and 3 - 10 wrapped. -/
theorem test_subnReg :
    (after 0x8127 (regs 1 3 2 10)).getV 1 = 7 ∧ (after 0x8127 (regs 1 3 2 10)).getV 15 = 1 ∧
    (after 0x8127 (regs 1 10 2 3)).getV 1 = 0xF9 ∧ (after 0x8127 (regs 1 10 2 3)).getV 15 = 0 := by decide

/-- A43, A44. -/
theorem test_shlReg :
    (after 0x830E (regs 3 0xFF 0 0)).getV 3 = 0xFE ∧ (after 0x830E (regs 3 0xFF 0 0)).getV 15 = 1 ∧
    (after 0x830E (regs 3 0x40 0 0)).getV 15 = 0 := by decide

/-- A45: the source is Vy. A46, A47: VF as source under both orders. -/
theorem test_shlReg_settings :
    (after 0x834E (setting .sequential .vy (regs 3 1 4 0x80))).getV 3 = 0 ∧ (after 0x8F0E (regs 15 0xC0 0 0)).getV 15 = 2 ∧
    (after 0x8F0E (setting .snapshot .vx (regs 15 0xC0 0 0))).getV 15 = 0x80 := by decide

/-- M1. -/
theorem test_ldI : (after 0xA2F0 State.reset).i = 0x2F0 := by decide

/-- A50, A51: the mask, and one draw consumed even when it is 0. -/
theorem test_rndByte :
    (after 0xC10F (drawing 0xB6 State.reset)).getV 1 = 6 ∧ (after 0xC100 (drawing 0xFF State.reset)).rng.drawn = 1 := by decide

/-- D4: a collision with one cell. -/
theorem test_drw :
    let t := after 0xD011 (sprite 0xFF { State.reset with fb := State.reset.fb.toggle 3 0 })
    t.getV 15 = 1 ∧ lit t [(0, 0), (3, 0), (7, 0), (8, 0), (0, 1)] = [(0, 0), (7, 0)] := by decide

/-- D6, D8: the wrap of a pixel and of the origin; D14: VF read as the column before it is reset. -/
theorem test_drw_wraps :
    lit (after 0xD011 (sprite 0xFF (regs 0 0x3E 1 0))) [(61, 0), (62, 0), (63, 0), (0, 0), (5, 0), (6, 0)] =
      [(62, 0), (63, 0), (0, 0), (5, 0)] ∧
    lit (after 0xD011 (sprite 0x80 (regs 0 0x40 1 0x21))) [(0, 1), (0, 0)] = [(0, 1)] ∧
    lit (after 0xDF11 (sprite 0x80 (regs 15 5 0 0))) [(5, 0), (0, 0)] = [(5, 0)] := by decide

/-- K1, K5. -/
theorem test_skp :
    (after 0xE59E (pressing 3 (regs 5 3 0 0))).pc = 0x204 ∧
    (after 0xE59E (pressing 0 (regs 5 0x10 0 0))).fault = { cause := 5, pc := 0x200, opcode := 0xE59E, addr := 0x10 } := by decide

/-- K3, K4, K6. -/
theorem test_sknp :
    (after 0xE5A1 (pressing 3 (regs 5 3 0 0))).pc = 0x202 ∧ (after 0xE5A1 (regs 5 3 0 0)).pc = 0x204 ∧
    (after 0xE5A1 (regs 5 0xFF 0 0)).fault = { cause := 5, pc := 0x200, opcode := 0xE5A1, addr := 0xFF } := by decide

/-- K7: the value before the decrement. -/
theorem test_ldRegDT :
    let t := after 0xF307 { State.reset with dt := 16 }
    t.getV 3 = 16 ∧ t.dt = 15 := by decide

/-- K11: the lowest pressed key. -/
theorem test_ldRegK : (after 0xF20A (pressing 9 (pressing 3 State.reset))).getV 2 = 3 := by decide

/-- K10: no key, and the timers still count. -/
theorem test_ldRegK_waits :
    let t := after 0xF20A { State.reset with dt := 5, st := 1 }
    t.pc = 0x200 ∧ t.dt = 4 ∧ t.st = 0 := by decide

/-- K14. -/
theorem test_ldDTReg : (after 0xF415 (regs 4 0x3C 0 0)).dt = 59 := by decide

/-- K17. -/
theorem test_ldSTReg : (after 0xF418 (regs 4 2 0 0)).st = 1 := by decide

/-- M3, M4: past 0xFFF and past 0xFFFF. -/
theorem test_addI : (after 0xF11E ((index 0xFFF).setV 1 1)).i = 0x1000 ∧ (after 0xF11E ((index 0xFFFF).setV 1 2)).i = 1 := by decide

/-- M5, M7: the register is not masked. -/
theorem test_ldFont : (after 0xF229 (regs 2 0x0A 0 0)).i = 0x082 ∧ (after 0xF029 (regs 0 0xFF 1 0)).i = 0x54B := by decide

/-- M8, M13: three digits, up to the last address. -/
theorem test_ldBcd :
    (after 0xF333 ((index 0x300).setV 3 0x9C)).mem = [(0x200, 0xF3), (0x201, 0x33), (0x300, 1), (0x301, 5), (0x302, 6)] ∧
    (after 0xF333 ((index 0xFFD).setV 3 0xFF)).readByte 0xFFF = 5 := by decide

/-- M12: nothing is written. -/
theorem test_ldBcd_fault :
    let t := after 0xF333 ((index 0xFFE).setV 3 0xFF)
    t.fault = { cause := 2, pc := 0x200, opcode := 0xF333, addr := 0x1000 } ∧ t.readByte 0xFFE = 0 := by decide

/-- M15: `x = 0` stores one register, and `I` stays. -/
theorem test_storeRegs :
    let t := after 0xF055 ((((index 0x400).setV 0 0xAB)).setV 1 0xCD)
    t.readByte 0x400 = 0xAB ∧ t.readByte 0x401 = 0 ∧ t.i = 0x400 := by decide

/-- M16. -/
theorem test_storeRegs_fault :
    let t := after 0xF355 ((index 0xFFD).setV 0 1)
    t.fault = { cause := 2, pc := 0x200, opcode := 0xF355, addr := 0x1000 } ∧ t.readByte 0xFFD = 0 := by decide

/-- M17, with V4 left alone. -/
theorem test_loadRegs :
    let t := after 0xF365 ((index 0x400).writeBytes 0x400 [1, 2, 3, 4, 5])
    t.getV 0 = 1 ∧ t.getV 3 = 4 ∧ t.getV 4 = 0 ∧ t.i = 0x400 := by decide

/-- M20: no register is written. -/
theorem test_loadRegs_fault :
    let t := after 0xF165 ((index 0xFFF).writeByte 0xFFF 0xAB)
    t.fault = { cause := 2, pc := 0x200, opcode := 0xF165, addr := 0x1000 } ∧ t.getV 0 = 0 := by decide

/-! ### The ports -/

/-- H6, H7, H8. -/
theorem test_ports :
    portSetKey 3 true State.reset = .ok (pressing 3 State.reset) ∧ portSetKey 16 true State.reset = .error .keyIndexOutside ∧
    portReadTimers { State.reset with dt := 7, st := 1 } = (7, 1) := by decide

/-- H9, with a presenter of 8-bit cells. -/
theorem test_readFB :
    let fb := portReadFB 8 { State.reset with fb := State.reset.fb.toggle 5 2 }
    fb[133]? = some 0xFF ∧ fb[132]? = some 0 := by decide

/-- R219: a session that steps before it loads is refused, and after `Init` and `Load` it steps (program L3.5). -/
theorem test_session :
    ((Session.start defaultParams).call .step).2 = some .notNow ∧
    (((((Session.start defaultParams).call (.init 0 [])).1.call (.load (some [0x22, 0x00]))).1.call .step).1.core.sp = 1) := by
  decide

/-! ### Witnesses: every statement's hypotheses can be met together -/

/-- A state whose next word is `w`, from the reset state. -/
def placed (w : Nat) : State := State.reset.withFetchWord 16 w

/-- A halted state. -/
def haltedState : State := { State.reset with fault := { cause := 3, pc := 0x200, opcode := 0x2400, addr := 0 } }

/-- A session in a phase, holding the reset state. -/
def session (p : Phase) : Session := { phase := p, core := State.reset }

/-- The reset memory is in canonical form. -/
theorem reset_mem_wf : Memory.wf State.reset.params State.reset.mem := ⟨.nil, fun _ h => nomatch h⟩

theorem reset_inv : State.reset.Inv :=
  ⟨reset_mem_wf, by decide, .inl rfl, by decide, by decide⟩

theorem witness_DecodeReadsExactlyExaminedBits :
    decode 0x00E0 = .instr .cls ∧ (0x0FF0 : Word) &&& examinedBits .cls = encode .cls &&& examinedBits .cls := by decide

theorem witness_OpcodeRowsSelectDecode :
    decode 0x8126 = .instr (.shrReg 1 2) ∧ decode 0x8008 = .nop ∧ ∀ row ∈ opcodeRows, ¬ row.selectedBy 0x8008 := by decide

theorem witness_StepRunsDecodedInstruction :
    (placed 0x6A5C).fault.cause = 0 ∧ (placed 0x6A5C).pc.toNat ≤ 0xFFE ∧
    decode (placed 0x6A5C).fetchWord = .instr (.ldByte 10 0x5C) ∧
    ∃ t, exec (.ldByte 10 0x5C) { placed 0x6A5C with opcode := (placed 0x6A5C).fetchWord, pc := (placed 0x6A5C).pc + 2 } =
      .next t ∧ t.fault.cause = 0 := ⟨by decide, by decide, by decide, _, rfl, by decide⟩

/-- The same with a handler that raises a fault. -/
theorem witness_StepRunsDecodedInstruction_fault :
    (placed 0x00EE).fault.cause = 0 ∧ (placed 0x00EE).pc.toNat ≤ 0xFFE ∧ decode (placed 0x00EE).fetchWord = .instr .ret ∧
    ∃ t, exec .ret { placed 0x00EE with opcode := (placed 0x00EE).fetchWord, pc := (placed 0x00EE).pc + 2 } =
      .next t ∧ t.fault.cause ≠ 0 := ⟨by decide, by decide, by decide, _, rfl, by decide⟩

theorem witness_UnmappedWordIsNop :
    (placed 0x8008).fault.cause = 0 ∧ (placed 0x8008).pc.toNat ≤ 0xFFE ∧
    ∀ row ∈ opcodeRows, ¬ row.selectedBy (placed 0x8008).fetchWord := by decide

theorem witness_FetchIsBigEndian :
    (placed 0x6A5C).fault.cause = 0 ∧ ∃ t, step (placed 0x6A5C) = .next t ∧ t.fault.cause = 0 :=
  ⟨by decide, _, rfl, by decide⟩

theorem witness_HaltedCoreStaysHalted :
    haltedState.fault.cause ≠ 0 ∧ ({ phase := .loaded, core := haltedState } : Session).core.fault.cause ≠ 0 ∧
    ∀ seed forced, HostCall.step ≠ .init seed forced := ⟨by decide, by decide, fun _ _ h => nomatch h⟩

theorem witness_RangeChecksPrecedeEveryWrite_fetch :
    (State.reset.setPC 0xFFF).fault.cause = 0 ∧ (State.reset.setPC 0xFFF).pc.toNat > 0xFFE := by decide

/-- A sprite whose third row is the first byte out of range. -/
theorem witness_RangeChecksPrecedeEveryWrite_bad :
    (∃ x y n, Instr.drw 0 1 3 = .drw x y n ∧ 3 = n.toNat) ∧ 2 < 3 ∧ (index 0xFFE).i.toNat + 2 > 0xFFF ∧
    ∀ m < 2, (index 0xFFE).i.toNat + m ≤ 0xFFF := ⟨⟨0, 1, 3, rfl, rfl⟩, by decide, by decide, by decide⟩

/-- The three memory instructions, at the last address where everything is in range. -/
theorem witness_RangeChecksPrecedeEveryWrite_good :
    (∃ x, Instr.ldBcd 3 = .ldBcd x ∧ 3 = 3) ∧ (∃ x : Reg, Instr.storeRegs 2 = .storeRegs x ∧ 3 = x.val + 1) ∧
    (∃ x : Reg, Instr.loadRegs 2 = .loadRegs x ∧ 3 = x.val + 1) ∧ ∀ j < 3, (index 0xFFD).i.toNat + j ≤ 0xFFF :=
  ⟨⟨3, rfl, rfl⟩, ⟨2, rfl, rfl⟩, ⟨2, rfl, rfl⟩, by decide⟩

theorem witness_FaultingStepCommitsNothing :
    (placed 0x00EE).fault.cause = 0 ∧ (∃ t, step (placed 0x00EE) = .next t ∧ t.fault.cause ≠ 0) ∧
    (State.reset.setPC 0xFFF).fault.cause = 0 ∧ ∃ t, step (State.reset.setPC 0xFFF) = .next t ∧ t.fault.cause ≠ 0 :=
  ⟨by decide, ⟨_, rfl, by decide⟩, by decide, _, rfl, by decide⟩

/-- A fault, no fault, and NOP. -/
theorem witness_StepFaultsExactlyAsTableSays :
    (placed 0x00EE).fault.cause = 0 ∧ (placed 0x00EE).pc.toNat ≤ 0xFFE ∧ decode (placed 0x00EE).fetchWord = .instr .ret ∧
    (placed 0x00EE).raises .ret = some ⟨.stackUnderflow, 0⟩ ∧
    decode (placed 0x00E0).fetchWord = .instr .cls ∧ (placed 0x00E0).raises .cls = none ∧
    decode (placed 0x8008).fetchWord = .nop := by decide

theorem witness_StepFaultsExactlyAsTableSays_safe : (placed 0x6A5C).StepsSafely :=
  ⟨by decide, by decide, fun i h => by
    have : decode (placed 0x6A5C).fetchWord = .instr (.ldByte 10 0x5C) := by decide
    rw [this] at h
    cases h
    rfl⟩

/-- An Fx15, an Fx18 and another instruction. -/
theorem witness_TimersCountEveryStep :
    (∃ t, step (placed 0xF415) = .next t ∧ t.fault.cause = 0) ∧ (∃ t, step (placed 0xF418) = .next t ∧ t.fault.cause = 0) ∧
    (∃ t, step (placed 0x6A5C) = .next t ∧ t.fault.cause = 0) ∧
    decode (placed 0xF415).fetchWord = .instr (.ldDTReg 4) ∧ decode (placed 0xF418).fetchWord = .instr (.ldSTReg 4) :=
  ⟨⟨_, rfl, by decide⟩, ⟨_, rfl, by decide⟩, ⟨_, rfl, by decide⟩, by decide, by decide⟩

/-- A jump, a skip and an instruction that goes on. -/
theorem witness_ProgramCounterAfterStep :
    (∃ t, step (placed 0x1ABC) = .next t ∧ t.fault.cause = 0) ∧ (∃ t, step (placed 0x3300) = .next t ∧ t.fault.cause = 0) ∧
    ∃ t, step (placed 0x6A5C) = .next t ∧ t.fault.cause = 0 :=
  ⟨⟨_, rfl, by decide⟩, ⟨_, rfl, by decide⟩, _, rfl, by decide⟩

/-- A store that lies in memory, up to its last byte, and one that does not. -/
theorem witness_EveryInstructionKeepsItsFrame :
    Memory.wf (index 0xFFD).params (index 0xFFD).mem ∧ (∃ t, exec (.ldBcd 3) (index 0xFFD) = .next t) ∧
    (index 0xFFD).i.toNat + storedBytes (.ldBcd 3) ≤ 0x1000 ∧ (index 0xFFD).raises (.ldBcd 3) = none ∧
    (∃ t, exec (.ldBcd 3) (index 0xFFE) = .next t) ∧ (index 0xFFE).i.toNat + storedBytes (.ldBcd 3) > 0x1000 :=
  ⟨reset_mem_wf, ⟨_, rfl⟩, by decide, by decide, ⟨_, rfl⟩, by decide⟩

theorem witness_StepKeepsInvariant : State.reset.Inv ∧ ∃ t, step State.reset = .next t := ⟨reset_inv, _, rfl⟩

/-- The highest `FONT_BASE` R10 allows. -/
theorem witness_InitialStateMeetsInvariant : Params.WellFormed { defaultParams with fontBase := 0x1B0 } := by decide

theorem witness_StepDependsOnDrawOnlyInRnd :
    (placed 0x6A5C).fault.cause = 0 ∧ (placed 0x6A5C).pc.toNat ≤ 0xFFE ∧ (∃ t, step (placed 0x6A5C) = .next t) ∧
    (∀ x kk, decode (placed 0x6A5C).fetchWord ≠ .instr (.rndByte x kk)) ∧
    (∃ t, step (drawing 0xB6 (placed 0xC10F)) = .next t) ∧
    decode (drawing 0xB6 (placed 0xC10F)).fetchWord = .instr (.rndByte 1 0x0F) ∧
    ({ seed := 9, drawn := 4, forced := [0xB6, 1] } : Rng).nextByte = (drawing 0xB6 (placed 0xC10F)).rng.nextByte := by
  refine ⟨by decide, by decide, ⟨_, rfl⟩, fun x kk h => ?_, ⟨_, rfl⟩, by decide, rfl⟩
  have : decode (placed 0x6A5C).fetchWord = .instr (.ldByte 10 0x5C) := by decide
  rw [this] at h
  cases h

theorem witness_SoundTimerIsNeverRead :
    (∃ t, exec (.ldSTReg 4) State.reset = .next t) ∧ ∃ t, exec (.ldRegDT 4) State.reset = .next t := ⟨⟨_, rfl⟩, _, rfl⟩

/-- One address on the stack, sixteen, and none. -/
theorem witness_ReturnPopsIntoProgramCounter :
    (stacked 1 0x300 State.reset).sp.val ≠ 0 ∧ (stacked 16 0x300 State.reset).sp.val ≠ 0 ∧
    (placed 0x00EE).fault.cause = 0 ∧ (placed 0x00EE).pc.toNat ≤ 0xFFE ∧ decode (placed 0x00EE).fetchWord = .instr .ret ∧
    (placed 0x00EE).sp.val = 0 := by decide

theorem witness_JumpSetsProgramCounter :
    (State.reset.setPC 0xFFF).fault.cause = 0 ∧ (State.reset.setPC 0xFFF).pc.toNat = 0xFFF := by decide

/-- No address on the stack, fifteen, and sixteen. -/
theorem witness_CallPushesReturnAddress :
    State.reset.sp.val < 16 ∧ (stacked 15 0x300 State.reset).sp.val < 16 ∧
    (stacked 16 0x300 (placed 0x2400)).fault.cause = 0 ∧ (stacked 16 0x300 (placed 0x2400)).pc.toNat ≤ 0xFFE ∧
    decode (stacked 16 0x300 (placed 0x2400)).fetchWord = .instr (.callAddr 0x400) ∧
    (stacked 16 0x300 (placed 0x2400)).sp.val = 16 := by decide

theorem witness_ReturnUndoesCall :
    State.reset.sp.val < 16 ∧ ∃ t u : State, exec (.callAddr 0x400) State.reset = .next t ∧ u.sp = t.sp ∧ u.stack = t.stack :=
  ⟨by decide, _, _, rfl, rfl, rfl⟩

/-- VF as the destination under `sequential`, and two other registers. -/
theorem witness_SubtractSetsStrictFlag :
    (∃ f a b : Byte, f = (if ((regs 15 7 1 5).getV 15).toNat > ((regs 15 7 1 5).getV 1).toNat then 1 else 0) ∧
      a = (if (regs 15 7 1 5).params.aliasOrder = .sequential ∧ (15 : Reg) = 15 then f else (regs 15 7 1 5).getV 15) ∧
      b = (if (regs 15 7 1 5).params.aliasOrder = .sequential ∧ (1 : Reg) = 15 then f else (regs 15 7 1 5).getV 1) ∧
      f = 1 ∧ a = 1 ∧ b = 5) ∧
    ∃ f a b : Byte, f = (if ((regs 1 5 2 5).getV 1).toNat > ((regs 1 5 2 5).getV 2).toNat then 1 else 0) ∧
      a = (if (regs 1 5 2 5).params.aliasOrder = .sequential ∧ (1 : Reg) = 15 then f else (regs 1 5 2 5).getV 1) ∧
      b = (if (regs 1 5 2 5).params.aliasOrder = .sequential ∧ (2 : Reg) = 15 then f else (regs 1 5 2 5).getV 2) ∧
      f = 0 ∧ a = 5 ∧ b = 5 := ⟨⟨1, 1, 5, by decide⟩, 0, 5, 5, by decide⟩

/-- VF as the second operand under `sequential`. -/
theorem witness_ReverseSubtractSetsStrictFlag :
    ∃ f a b : Byte, f = (if ((regs 1 5 15 7).getV 15).toNat > ((regs 1 5 15 7).getV 1).toNat then 1 else 0) ∧
      a = (if (regs 1 5 15 7).params.aliasOrder = .sequential ∧ (1 : Reg) = 15 then f else (regs 1 5 15 7).getV 1) ∧
      b = (if (regs 1 5 15 7).params.aliasOrder = .sequential ∧ (15 : Reg) = 15 then f else (regs 1 5 15 7).getV 15) ∧
      f = 1 ∧ a = 5 ∧ b = 1 := ⟨1, 5, 1, by decide⟩

/-- Both sources. -/
theorem witness_ShiftsSetShiftedOutBit :
    (∃ (src : Reg) (lo hi : Byte), src = (if (regs 3 0x81 4 0).params.shiftSource = .vx then 3 else 4) ∧
      lo = BitVec.ofNat 8 (((regs 3 0x81 4 0).getV src).toNat % 2) ∧
      hi = BitVec.ofNat 8 (((regs 3 0x81 4 0).getV src).toNat / 128) ∧ src = 3 ∧ lo = 1 ∧ hi = 1) ∧
    ∃ (src : Reg) (lo hi : Byte),
      src = (if (setting .snapshot .vy (regs 3 0x81 4 0)).params.shiftSource = .vx then 3 else 4) ∧
      lo = BitVec.ofNat 8 (((setting .snapshot .vy (regs 3 0x81 4 0)).getV src).toNat % 2) ∧
      hi = BitVec.ofNat 8 (((setting .snapshot .vy (regs 3 0x81 4 0)).getV src).toNat / 128) ∧ src = 4 ∧ lo = 0 ∧ hi = 0 :=
  ⟨⟨3, 1, 1, by decide⟩, 4, 0, 0, by decide⟩

/-- An empty sprite above memory, a sprite up to the last byte, and one a byte beyond. -/
theorem witness_DrawXorsWrappedSprite :
    ((0 : Nibble) = 0 ∨ (index 0x1000).i.toNat + (0 : Nibble).toNat ≤ 0x1000) ∧
    ((2 : Nibble) = 0 ∨ (index 0xFFE).i.toNat + (2 : Nibble).toNat ≤ 0x1000) ∧
    (3 : Nibble) ≠ 0 ∧ (index 0xFFE).i.toNat + (3 : Nibble).toNat > 0x1000 := by decide

theorem witness_DrawTwiceRestoresFramebuffer :
    (0 : Reg) ≠ 15 ∧ (1 : Reg) ≠ 15 ∧ ((1 : Nibble) = 0 ∨ (index 0x300).i.toNat + (1 : Nibble).toNat ≤ 0x1000) ∧
    ∃ t, exec (.drw 0 1 1) (index 0x300) = .next t := ⟨by decide, by decide, by decide, _, rfl⟩

/-- The highest key, and the lowest value that names none. -/
theorem witness_KeySkipsTestTheNamedKey :
    ((regs 5 15 0 0).getV 5).toNat = (15 : Fin 16).val ∧
    ((regs 5 16 0 0).withFetchWord 16 0xE59E).fault.cause = 0 ∧ ((regs 5 16 0 0).withFetchWord 16 0xE59E).pc.toNat ≤ 0xFFE ∧
    (((regs 5 16 0 0).withFetchWord 16 0xE59E).getV 5).toNat > 0xF ∧
    decode ((regs 5 16 0 0).withFetchWord 16 0xE59E).fetchWord = .instr (.skp 5) ∧
    decode ((regs 5 16 0 0).withFetchWord 16 0xE5A1).fetchWord = .instr (.sknp 5) := by decide

theorem witness_ReadDelayTimerBeforeDecrement :
    (placed 0xF307).fault.cause = 0 ∧ (placed 0xF307).pc.toNat ≤ 0xFFE ∧ decode (placed 0xF307).fetchWord = .instr (.ldRegDT 3) ∧
    (placed 0xF307).dt = 0 ∧ ({ placed 0xF307 with dt := 1 } : State).dt.toNat ≠ 0 := by decide

theorem witness_KeyWaitTakesLowestKeyOrRepeats :
    (pressing 9 (pressing 3 State.reset)).keyPressed 3 = true ∧
    (∀ j < (3 : Fin 16), (pressing 9 (pressing 3 State.reset)).keyPressed j = false) ∧
    (∀ k, (placed 0xF20A).keyPressed k = false) ∧ (placed 0xF20A).fault.cause = 0 ∧ (placed 0xF20A).pc.toNat ≤ 0xFFE ∧
    decode (placed 0xF20A).fetchWord = .instr (.ldRegK 2) := by decide

theorem witness_SetTimersThenDecrement :
    (placed 0xF415).fault.cause = 0 ∧ (placed 0xF415).pc.toNat ≤ 0xFFE ∧ decode (placed 0xF415).fetchWord = .instr (.ldDTReg 4) ∧
    (placed 0xF418).fault.cause = 0 ∧ (placed 0xF418).pc.toNat ≤ 0xFFE ∧ decode (placed 0xF418).fetchWord = .instr (.ldSTReg 4) := by
  decide

theorem witness_IndexRegisterWriters : State.reset.params.WellFormed := by decide

theorem witness_BcdStoresThreeDigits :
    Memory.wf (index 0xFFD).params (index 0xFFD).mem ∧ (index 0xFFD).i.toNat + 2 ≤ 0xFFF ∧ (index 0xFFE).i.toNat + 2 > 0xFFF :=
  ⟨reset_mem_wf, by decide, by decide⟩

theorem witness_StoreRegistersWritesBlock :
    Memory.wf (index 0xFFC).params (index 0xFFC).mem ∧ (index 0xFFC).i.toNat + (3 : Reg).val ≤ 0xFFF ∧
    (index 0xFFD).i.toNat + (3 : Reg).val > 0xFFF := ⟨reset_mem_wf, by decide, by decide⟩

theorem witness_LoadRegistersReadsBlock :
    (index 0xFF0).i.toNat + (15 : Reg).val ≤ 0xFFF ∧ (index 0xFF1).i.toNat + (15 : Reg).val > 0xFFF := by decide

theorem witness_StoreThenLoadRoundTrips :
    Memory.wf (index 0xFFC).params (index 0xFFC).mem ∧ (index 0xFFC).i.toNat + (3 : Reg).val ≤ 0xFFF ∧
    ∃ t u : State, exec (.storeRegs 3) (index 0xFFC) = .next t ∧ u.i = t.i ∧ u.mem = t.mem ∧ u.params = t.params :=
  ⟨reset_mem_wf, by decide, _, _, rfl, rfl, rfl, rfl⟩

theorem witness_StoredBytesAreFetched :
    Memory.wf (index 0xFFC).params (index 0xFFC).mem ∧ (index 0xFFC).i.toNat + (3 : Reg).val ≤ 0xFFF ∧
    (3 : Reg).val = (2 : Reg).val + 1 ∧ (3 : Reg) ≤ 3 ∧
    ∃ t u : State, exec (.storeRegs 3) (index 0xFFC) = .next t ∧ u.mem = t.mem ∧ u.params = t.params ∧
      u.pc.toNat = (index 0xFFC).i.toNat + (2 : Reg).val :=
  ⟨reset_mem_wf, by decide, by decide, by decide, _, State.setPC _ 0xFFE, rfl, rfl, rfl, by decide⟩

/-- The last byte of the font and the first byte after it. -/
theorem witness_InitialisationLeavesResetState :
    (∃ s, s = portInit defaultParams 1 []) ∧ 79 < 80 ∧
    ¬ (defaultParams.fontBase.toNat ≤ 0x0A0 ∧ 0x0A0 < defaultParams.fontBase.toNat + 80) := ⟨⟨_, rfl⟩, by decide, by decide⟩

theorem witness_LoadCopiesProgramVerbatim :
    Memory.wf State.reset.params State.reset.mem ∧ (zeros 3584).length ≤ 3584 ∧ (zeros 3585).length > 3584 ∧
    defaultParams.WellFormed ∧ (session .initialised).phase = .initialised ∧
    portLoad none (session .initialised).core = .error .loadIO ∧
    ∃ g, (session .initialised).call (.load (some [0x22, 0x00])) = (g, none) := by
  rw [zeros, zeros, List.length_replicate, List.length_replicate]
  exact ⟨reset_mem_wf, by decide, by decide, by decide, rfl, rfl, _, rfl⟩

theorem witness_SetKeyWritesOneCell : (16 : Nat) > 15 := by decide

theorem witness_SessionOrdersHostCalls :
    (session .initialised).phase ≠ .loaded ∧ (session .loaded).phase ≠ .initialised ∧
    (session .initialised).phase = .initialised ∧ ([0x22, 0x00] : List Byte).length ≤ 3584 ∧
    (session .loaded).phase = .loaded ∧ (∃ t, step (session .loaded).core = .next t) ∧
    (∀ seed forced, HostCall.setKey 3 true ≠ .init seed forced) ∧ HostCall.setKey 3 true ≠ .step :=
  ⟨by decide, by decide, rfl, by decide, rfl, ⟨_, rfl⟩, fun _ _ h => (nomatch h), fun h => nomatch h⟩

theorem witness_SelfJumpOnlyCountsTimers :
    let s : State := { placed 0x1200 with opcode := 0x1200, dt := 5 }
    s.fault.cause = 0 ∧ s.pc.toNat ≤ 0xFFE ∧ decode s.fetchWord = .instr (.jpAddr 0x200) ∧
    (0x200 : Addr12).toNat = s.pc.toNat ∧ s.opcode = s.fetchWord := by decide

end Sys2Proof.Tests
end

section
/-! SUPPORT. What a handler leaves when its instruction raises nothing, what it keeps, and what a step does with it. -/

namespace Sys2Proof.Machine

/-! ### When an instruction raises nothing -/

section Raises

variable (s : State) (x y : Reg)

theorem State.raises_ret_none : s.raises .ret = none ↔ s.sp.val ≠ 0 := by
  simp [State.raises]

theorem State.raises_callAddr_none (nnn : Addr12) : s.raises (.callAddr nnn) = none ↔ s.sp.val < 16 := by
  simp only [State.raises, ite_eq_right_iff, reduceCtorEq, imp_false]
  omega

theorem State.raises_skp_none : s.raises (.skp x) = none ↔ (s.getV x).toNat < 16 := by
  simp only [State.raises, ite_eq_right_iff, reduceCtorEq, imp_false]
  omega

theorem State.raises_sknp_none : s.raises (.sknp x) = none ↔ (s.getV x).toNat < 16 :=
  s.raises_skp_none x

theorem State.raises_drw_none (n : Nibble) :
    s.raises (.drw x y n) = none ↔ ¬ (n.toNat ≠ 0 ∧ s.i.toNat + n.toNat > 0x1000) := by
  simp only [State.raises, ite_eq_right_iff, reduceCtorEq, imp_false]

theorem State.raises_ldBcd_none : s.raises (.ldBcd x) = none ↔ s.i.toNat + 3 ≤ 0x1000 := by
  simp only [State.raises, ite_eq_right_iff, reduceCtorEq, imp_false]
  omega

theorem State.raises_storeRegs_none : s.raises (.storeRegs x) = none ↔ s.i.toNat + (x.val + 1) ≤ 0x1000 := by
  simp only [State.raises, ite_eq_right_iff, reduceCtorEq, imp_false]
  omega

theorem State.raises_loadRegs_none : s.raises (.loadRegs x) = none ↔ s.i.toNat + (x.val + 1) ≤ 0x1000 :=
  s.raises_storeRegs_none x

end Raises

/-! ### What a handler that can raise leaves when it does not -/

section Completes

variable (s : State) (x y : Reg)

theorem exec_ret_of_pos (h : s.sp.val ≠ 0) :
    exec .ret s = .next { s with pc := s.stack[s.sp.val - 1]'(by omega), sp := ⟨s.sp.val - 1, by omega⟩ } := by
  simp only [exec, execRet, State.pop_of_pos s h]
  rfl

theorem exec_callAddr_of_lt (nnn : Addr12) (h : s.sp.val < 16) :
    exec (.callAddr nnn) s = .next { s with
      pc := nnn.setWidth 16, stack := s.stack.set s.sp.val s.pc h, sp := ⟨s.sp.val + 1, by omega⟩ } := by
  simp only [exec, execCallAddr, State.push_of_lt s _ h]
  rfl

theorem exec_skp_of_lt (h : (s.getV x).toNat < 16) :
    exec (.skp x) s = .next (s.skipIf (s.keyPressed ⟨(s.getV x).toNat, h⟩)) := by
  simp only [exec, execSkp, keyIndex_of_lt _ h]
  rfl

theorem exec_sknp_of_lt (h : (s.getV x).toNat < 16) :
    exec (.sknp x) s = .next (s.skipIf (!s.keyPressed ⟨(s.getV x).toNat, h⟩)) := by
  simp only [exec, execSknp, keyIndex_of_lt _ h]
  rfl

theorem exec_drw_of_fits (n : Nibble) (h : ¬ (n.toNat ≠ 0 ∧ s.i.toNat + n.toNat > 0x1000)) :
    exec (.drw x y n) s = .next (s.drawSprite x y n.toNat) := by
  simp only [exec, execDrw, State.checkRange_eq, if_neg h]
  rfl

theorem exec_ldBcd_of_fits (h : s.i.toNat + 3 ≤ 0x1000) :
    exec (.ldBcd x) s = .next (s.writeBytes s.i.toNat (bcdDigits (s.getV x))) := by
  simp only [exec, execLdBcd, State.checkRange_eq, if_neg (fun e : _ ∧ _ => absurd h (Nat.not_le.mpr e.2))]
  rfl

theorem exec_storeRegs_of_fits (h : s.i.toNat + (x.val + 1) ≤ 0x1000) :
    exec (.storeRegs x) s = .next (s.writeBytes s.i.toNat ((regsUpTo x).map s.getV)) := by
  simp only [exec, execStoreRegs, State.checkRange_eq, if_neg (fun e : _ ∧ _ => absurd h (Nat.not_le.mpr e.2))]
  rfl

theorem exec_loadRegs_of_fits (h : s.i.toNat + (x.val + 1) ≤ 0x1000) :
    exec (.loadRegs x) s = .next (s.loadBlock x) := by
  simp only [exec, execLoadRegs, State.checkRange_eq, if_neg (fun e : _ ∧ _ => absurd h (Nat.not_le.mpr e.2))]
  rfl

theorem exec_ldRegK_of_some (k : Fin 16) (h : s.lowestKey = some k) :
    exec (.ldRegK x) s = .next (s.setV x (BitVec.ofNat 8 k.val)) := by
  simp only [exec, execLdRegK, h]

theorem exec_ldRegK_of_none (h : s.lowestKey = none) : exec (.ldRegK x) s = .next (s.setPC (s.pc - 2)) := by
  simp only [exec, execLdRegK, h]

end Completes

/-! ### What a handler that raises nothing leaves unchanged -/

section Frame

variable {i : Instr} {s t u : State}

/-- `exec` answers one next state only. -/
theorem exec_next_inj (h : exec i s = .next t) (h' : exec i s = .next u) : t = u :=
  Host.Outcome.next.inj (h.symm.trans h')

/-- A handler that answers `t` raised what `State.raises` names, or raised nothing and kept the fault status. -/
theorem exec_outcome (h : exec i s = .next t) :
    (∃ r, s.raises i = some r ∧ t = s.raise r) ∨ (s.raises i = none ∧ t.fault = s.fault) := by
  obtain ⟨r, hr, hx⟩ | ⟨hr, u, hx, hf⟩ := exec_cases i s
  · exact .inl ⟨r, hr, exec_next_inj h hx⟩
  · exact .inr ⟨hr, exec_next_inj h hx ▸ hf⟩

/-- An instruction that raises `r` leaves the state in which `r` was raised. -/
theorem exec_of_raises {r : Raise} (h : s.raises i = some r) : exec i s = .next (s.raise r) := by
  obtain ⟨r', hr', hx⟩ | ⟨hr', _⟩ := exec_cases i s
  · rwa [Option.some.inj (h.symm.trans hr')]
  · rw [hr'] at h; cases h

/-- `t` is `s` but for the fields that `i` may write when it raises nothing. -/
def FrameOf (i : Instr) (s t : State) : Prop :=
  match i with
  | .cls => t = { s with fb := t.fb }
  | .ret => t = { s with pc := t.pc, sp := t.sp }
  | .callAddr _ => t = { s with pc := t.pc, sp := t.sp, stack := t.stack }
  | .jpAddr _ | .jpV0 _ | .seByte _ _ | .sneByte _ _ | .seReg _ _ | .sneReg _ _ | .skp _ | .sknp _ =>
    t = { s with pc := t.pc }
  | .ldI _ | .addI _ | .ldFont _ => t = { s with i := t.i }
  | .ldDTReg _ => t = { s with dt := t.dt }
  | .ldSTReg _ => t = { s with st := t.st }
  | .ldBcd _ | .storeRegs _ => t = { s with mem := t.mem }
  | .rndByte _ _ => t = { s with v := t.v, rng := t.rng }
  | .drw _ _ _ => t = { s with v := t.v, fb := t.fb }
  | .ldRegK _ => t = { s with v := t.v, pc := t.pc }
  | _ => t = { s with v := t.v }

theorem skipIf_frame (s : State) (c : Bool) : s.skipIf c = { s with pc := (s.skipIf c).pc } := by
  rw [State.skipIf_eq]; rfl

/-- A handler that raises nothing changes only the fields its instruction may write. -/
theorem exec_frame (h : exec i s = .next t) (hr : s.raises i = none) : FrameOf i s t := by
  cases i
  case ret => obtain rfl := exec_next_inj h (exec_ret_of_pos s (s.raises_ret_none.mp hr)); rfl
  case callAddr nnn =>
    obtain rfl := exec_next_inj h (exec_callAddr_of_lt s nnn ((s.raises_callAddr_none nnn).mp hr)); rfl
  case skp x =>
    obtain rfl := exec_next_inj h (exec_skp_of_lt s x ((s.raises_skp_none x).mp hr))
    exact skipIf_frame s _
  case sknp x =>
    obtain rfl := exec_next_inj h (exec_sknp_of_lt s x ((s.raises_sknp_none x).mp hr))
    exact skipIf_frame s _
  case drw x y n =>
    obtain rfl := exec_next_inj h (exec_drw_of_fits s x y n ((s.raises_drw_none x y n).mp hr)); rfl
  case ldBcd x =>
    obtain rfl := exec_next_inj h (exec_ldBcd_of_fits s x ((s.raises_ldBcd_none x).mp hr))
    exact State.writeBytes_eq s _ _
  case storeRegs x =>
    obtain rfl := exec_next_inj h (exec_storeRegs_of_fits s x ((s.raises_storeRegs_none x).mp hr))
    exact State.writeBytes_eq s _ _
  case loadRegs x =>
    obtain rfl := exec_next_inj h (exec_loadRegs_of_fits s x ((s.raises_loadRegs_none x).mp hr))
    exact State.loadBlock_eq s x
  case ldRegK x =>
    cases hk : s.lowestKey with
    | some k => obtain rfl := exec_next_inj h (exec_ldRegK_of_some s x k hk); rfl
    | none => obtain rfl := exec_next_inj h (exec_ldRegK_of_none s x hk); rfl
  case seByte | sneByte | seReg | sneReg =>
    obtain rfl := Host.Outcome.next.inj h
    exact skipIf_frame s _
  case subReg | shrReg | subnReg | shlReg =>
    obtain rfl := Host.Outcome.next.inj h
    exact State.flagThenResult_eq s _ _ _
  all_goals
    obtain rfl := Host.Outcome.next.inj h
    rfl

/-! ### The frame, field by field -/

theorem FrameOf.keys (h : FrameOf i s t) : t.keys = s.keys := by
  cases i <;> exact (congrArg State.keys h :)

theorem FrameOf.opcode (h : FrameOf i s t) : t.opcode = s.opcode := by
  cases i <;> exact (congrArg State.opcode h :)

theorem FrameOf.params (h : FrameOf i s t) : t.params = s.params := by
  cases i <;> exact (congrArg State.params h :)

theorem FrameOf.index (h : FrameOf i s t) (hLdI : ∀ nnn, i ≠ .ldI nnn) (hAddI : ∀ x, i ≠ .addI x)
    (hLdFont : ∀ x, i ≠ .ldFont x) : t.i = s.i := by
  cases i
  case ldI nnn => exact absurd rfl (hLdI nnn)
  case addI x => exact absurd rfl (hAddI x)
  case ldFont x => exact absurd rfl (hLdFont x)
  all_goals exact (congrArg State.i h :)

theorem FrameOf.stack (h : FrameOf i s t) (hCall : ∀ nnn, i ≠ .callAddr nnn) : t.stack = s.stack := by
  cases i
  case callAddr nnn => exact absurd rfl (hCall nnn)
  all_goals exact (congrArg State.stack h :)

theorem FrameOf.sp (h : FrameOf i s t) (hCall : ∀ nnn, i ≠ .callAddr nnn) (hRet : i ≠ .ret) : t.sp = s.sp := by
  cases i
  case callAddr nnn => exact absurd rfl (hCall nnn)
  case ret => exact absurd rfl hRet
  all_goals exact (congrArg State.sp h :)

theorem FrameOf.dt (h : FrameOf i s t) (hDT : ∀ x, i ≠ .ldDTReg x) : t.dt = s.dt := by
  cases i
  case ldDTReg x => exact absurd rfl (hDT x)
  all_goals exact (congrArg State.dt h :)

theorem FrameOf.st (h : FrameOf i s t) (hST : ∀ x, i ≠ .ldSTReg x) : t.st = s.st := by
  cases i
  case ldSTReg x => exact absurd rfl (hST x)
  all_goals exact (congrArg State.st h :)

theorem FrameOf.fb (h : FrameOf i s t) (hCls : i ≠ .cls) (hDrw : ∀ x y n, i ≠ .drw x y n) : t.fb = s.fb := by
  cases i
  case cls => exact absurd rfl hCls
  case drw x y n => exact absurd rfl (hDrw x y n)
  all_goals exact (congrArg State.fb h :)

theorem FrameOf.rng (h : FrameOf i s t) (hRnd : ∀ x kk, i ≠ .rndByte x kk) : t.rng = s.rng := by
  cases i
  case rndByte x kk => exact absurd rfl (hRnd x kk)
  all_goals exact (congrArg State.rng h :)

theorem FrameOf.mem (h : FrameOf i s t) (hStore : storedBytes i = 0) : t.mem = s.mem := by
  cases i
  case ldBcd | storeRegs => cases hStore
  all_goals exact (congrArg State.mem h :)

/-- A handler that raises nothing writes only the registers of `destRegs`. -/
theorem exec_getV_of_not_dest (h : exec i s = .next t) (hr : s.raises i = none) (r : Reg) (hd : r ∉ destRegs i) :
    t.getV r = s.getV r := by
  have hframe := exec_frame h hr
  cases i
  case ldByte | addByte | ldReg | orReg | andReg | xorReg | rndByte | ldRegDT =>
    obtain rfl := Host.Outcome.next.inj h
    exact State.getV_setV_other _ _ _ _ (List.ne_of_not_mem_cons hd)
  case addReg | subReg | shrReg | subnReg | shlReg =>
    obtain ⟨hVF, hx⟩ := List.ne_and_not_mem_of_not_mem_cons hd
    obtain rfl := Host.Outcome.next.inj h
    simp [State.getV_flagThenResult, State.getV_setV, hVF, List.ne_of_not_mem_cons hx]
  case ldRegK x =>
    cases hk : s.lowestKey with
    | some k =>
      obtain rfl := exec_next_inj h (exec_ldRegK_of_some s x k hk)
      exact State.getV_setV_other _ _ _ _ (List.ne_of_not_mem_cons hd)
    | none =>
      obtain rfl := exec_next_inj h (exec_ldRegK_of_none s x hk)
      rfl
  case drw x y n =>
    obtain rfl := exec_next_inj h (exec_drw_of_fits s x y n ((s.raises_drw_none x y n).mp hr))
    exact State.getV_setV_other s _ _ _ (List.ne_of_not_mem_cons hd)
  case loadRegs x =>
    obtain rfl := exec_next_inj h (exec_loadRegs_of_fits s x ((s.raises_loadRegs_none x).mp hr))
    have hrx : ¬ r ≤ x := by simpa [destRegs] using hd
    rw [State.getV_loadBlock, if_neg hrx]
  all_goals exact (congrArg (State.getV · r) hframe :)

/-- A handler stores nothing, or stores `storedBytes` bytes at `I` that lie in memory. -/
theorem exec_stores (h : exec i s = .next t) :
    t.mem = s.mem ∨
    ∃ bs : List Byte, bs.length = storedBytes i ∧ s.i.toNat + bs.length ≤ 0x1000 ∧
      t.mem = (s.writeBytes s.i.toNat bs).mem := by
  obtain ⟨r, _, rfl⟩ | ⟨hr, _⟩ := exec_outcome h
  · exact .inl rfl
  have hframe := exec_frame h hr
  cases i
  case ldBcd x =>
    have hfit := (s.raises_ldBcd_none x).mp hr
    obtain rfl := exec_next_inj h (exec_ldBcd_of_fits s x hfit)
    exact .inr ⟨bcdDigits (s.getV x), rfl, hfit, rfl⟩
  case storeRegs x =>
    have hfit := (s.raises_storeRegs_none x).mp hr
    have hlen : ((regsUpTo x).map s.getV).length = x.val + 1 := by simp
    obtain rfl := exec_next_inj h (exec_storeRegs_of_fits s x hfit)
    exact .inr ⟨_, hlen, by rw [hlen]; exact hfit, rfl⟩
  all_goals exact .inl (hframe.mem rfl)

/-- Every handler keeps the parameters. -/
theorem exec_params (h : exec i s = .next t) : t.params = s.params := by
  obtain ⟨r, _, rfl⟩ | ⟨hr, _⟩ := exec_outcome h
  · rfl
  · exact (exec_frame h hr).params

/-- Every handler but that of Cxkk keeps the byte source (R40). -/
theorem exec_rng (h : exec i s = .next t) (hRnd : ∀ x kk, i ≠ .rndByte x kk) : t.rng = s.rng := by
  obtain ⟨r, _, rfl⟩ | ⟨hr, _⟩ := exec_outcome h
  · rfl
  · exact (exec_frame h hr).rng hRnd

/-- Every handler keeps memory canonical (R57). -/
theorem exec_memory_wf (h : exec i s = .next t) (hm : Memory.wf s.params s.mem) : Memory.wf t.params t.mem := by
  rw [exec_params h]
  obtain hmem | ⟨bs, _, hfit, hmem⟩ := exec_stores h
  · rwa [hmem]
  · rw [hmem]
    exact s.writeBytes_wf hm _ bs hfit

/-- States with the same parameters and the same memory read the same bytes. -/
theorem State.readByte_congr (hp : t.params = s.params) (hm : t.mem = s.mem) (a : Nat) : t.readByte a = s.readByte a := by
  rw [State.readByte, State.readByte, hp, hm]

/-- Outside the stored block every byte reads as before (R53). -/
theorem exec_sameMemoryOutside (h : exec i s = .next t) (hm : Memory.wf s.params s.mem) :
    SameMemoryOutside s.i.toNat (storedBytes i) s t := by
  intro a ha
  obtain hmem | ⟨bs, hlen, hfit, hmem⟩ := exec_stores h
  · exact State.readByte_congr (exec_params h) hmem a
  · have hp : t.params = (s.writeBytes s.i.toNat bs).params := by rw [exec_params h, State.writeBytes_eq]
    rw [State.readByte_congr hp hmem, s.readByte_writeBytes hm _ bs hfit, dif_neg (by omega)]

/-- A block that does not fit leaves all of memory as before (R53, R55). -/
theorem exec_sameMemory_of_not_fits (h : exec i s = .next t) (hbig : s.i.toNat + storedBytes i > 0x1000) :
    SameMemory s t := by
  intro a
  obtain hmem | ⟨bs, hlen, hfit, _⟩ := exec_stores h
  · exact State.readByte_congr (exec_params h) hmem a
  · exact absurd hfit (by omega)

/-- A handler's stack: as before, or with the handler's `PC` pushed (R105). -/
theorem exec_stack (h : exec i s = .next t) :
    t.stack = s.stack ∨ ∃ hlt : s.sp.val < 16, t.stack = s.stack.set s.sp.val s.pc hlt := by
  obtain ⟨r, _, rfl⟩ | ⟨hr, _⟩ := exec_outcome h
  · exact .inl rfl
  have hframe := exec_frame h hr
  cases i
  case callAddr nnn =>
    have hlt := (s.raises_callAddr_none nnn).mp hr
    obtain rfl := exec_next_inj h (exec_callAddr_of_lt s nnn hlt)
    exact .inr ⟨hlt, rfl⟩
  all_goals exact .inl (hframe.stack fun _ e => nomatch e)

end Frame

/-! ### Where a handler that raises nothing leaves `PC` -/

section ProgramCounter

variable {i : Instr} {s u : State}

/-- A key is pressed exactly when some key is the lowest one pressed. -/
theorem State.exists_keyPressed_iff (s : State) : (∃ k, s.keyPressed k = true) ↔ s.lowestKey ≠ none := by
  simp [State.lowestKey_none]

/-- R25: a handler that raises nothing leaves in `PC` what the table gives. -/
theorem exec_pc (h : exec i s.fetched = .next u) (hr : s.fetched.raises i = none) :
    u.pc = s.pcAfter (.instr i) := by
  have hframe := exec_frame h hr
  cases i
  case jpAddr nnn =>
    obtain rfl := Host.Outcome.next.inj h
    exact (BitVec.ofNat_toNat 16 nnn).symm
  case jpV0 nnn =>
    obtain rfl := Host.Outcome.next.inj h
    rfl
  case callAddr nnn =>
    obtain rfl := exec_next_inj h (exec_callAddr_of_lt _ nnn ((State.raises_callAddr_none _ nnn).mp hr))
    exact (BitVec.ofNat_toNat 16 nnn).symm
  case ret =>
    obtain rfl := exec_next_inj h (exec_ret_of_pos _ ((State.raises_ret_none _).mp hr))
    rfl
  case seByte | sneByte | seReg | sneReg =>
    obtain rfl := Host.Outcome.next.inj h
    simp [State.pcAfter, BitVec.add_assoc]
  case skp x =>
    have hx := (State.raises_skp_none _ x).mp hr
    obtain rfl := exec_next_inj h (exec_skp_of_lt _ x hx)
    simp only [State.fetched_getV] at hx
    simp [State.pcAfter, BitVec.add_assoc, State.keyPressed, hx]
  case sknp x =>
    have hx := (State.raises_sknp_none _ x).mp hr
    obtain rfl := exec_next_inj h (exec_sknp_of_lt _ x hx)
    simp only [State.fetched_getV] at hx
    simp [State.pcAfter, BitVec.add_assoc, State.keyPressed, hx]
  case ldRegK x =>
    have hlow : s.fetched.lowestKey = s.lowestKey := rfl
    simp only [State.pcAfter, State.exists_keyPressed_iff]
    cases hk : s.lowestKey with
    | some k =>
      obtain rfl := exec_next_inj h (exec_ldRegK_of_some _ x k (hlow.trans hk))
      simp
    | none =>
      obtain rfl := exec_next_inj h (exec_ldRegK_of_none _ x (hlow.trans hk))
      simp
  all_goals exact (congrArg State.pc hframe :)

end ProgramCounter

/-! ### What a step leaves -/

section Step

variable {s t : State}

/-- `FAULT_CAUSE` is 0 exactly when the core is not halted (R95). -/
theorem State.halted_eq_false_iff : s.halted = false ↔ s.fault.cause = 0 := by
  simp [State.halted]

/-- R201's codes are 1 to 5. -/
theorem Cause.code_bounds (c : Cause) : 1 ≤ c.code.toNat ∧ c.code.toNat ≤ 5 := by
  cases c <;> decide

theorem Cause.code_ne_zero (c : Cause) : c.code ≠ 0 := by
  cases c <;> decide

/-- A step that commits nothing but a fault: what the instruction at `PC`, of word `w`, raised. -/
def State.withFault (s : State) (w : Word) (r : Raise) : State :=
  { s with fault := { cause := r.cause.code, pc := s.pc, opcode := w, addr := r.info } }

theorem State.withFault_cause_ne_zero (s : State) (w : Word) (r : Raise) : (s.withFault w r).fault.cause ≠ 0 :=
  r.cause.code_ne_zero

/-- What a step leaves: a halted core as it was; the fault of the fetch or of the instruction, and nothing else; or a running
core whose fetch was in range, with the timers counted after NOP or after an instruction that raised nothing. -/
theorem step_outcome (h : step s = .next t) :
    (s.fault.cause ≠ 0 ∧ t = s) ∨ (∃ w r, t = s.withFault w r) ∨
    (s.fault.cause = 0 ∧ s.pc.toNat ≤ 0xFFE ∧
      ((decode s.fetchWord = .nop ∧ t = s.fetched.tick) ∨
        ∃ i u, decode s.fetchWord = .instr i ∧ s.fetched.raises i = none ∧ exec i s.fetched = .next u ∧
          u.fault = s.fault ∧ t = u.tick)) := by
  obtain ⟨hh, rfl⟩ | ⟨_, a, _, rfl⟩ | ⟨hh, hb, u, hx, rfl⟩ := step_cases h
  · exact .inl ⟨by simpa [State.halted] using hh, rfl⟩
  · exact .inr (.inl ⟨_, _, rfl⟩)
  have hrun := State.halted_eq_false_iff.mp hh
  have hpc : s.pc.toNat ≤ 0xFFE := by
    rw [State.badFetch_eq] at hb
    split at hb
    · cases hb
    · omega
  have halted_of_fault : ∀ v : State, v.fault = s.fault → v.halted = false := fun v hv => by
    rw [State.halted_eq_false_iff, hv, hrun]
  cases hd : decode s.fetchWord with
  | nop =>
    rw [hd] at hx
    obtain rfl := Host.Outcome.next.inj hx
    exact .inr (.inr ⟨hrun, hpc, .inl ⟨rfl, State.finish_of_running s _ (halted_of_fault _ rfl)⟩⟩)
  | instr i =>
    rw [hd] at hx
    obtain ⟨r, _, rfl⟩ | ⟨hr, hf⟩ := exec_outcome hx
    · exact .inr (.inl ⟨_, r, State.finish_raise s r⟩)
    · exact .inr (.inr ⟨hrun, hpc, .inr ⟨i, u, rfl, hr, hx, hf, State.finish_of_running s u (halted_of_fault u hf)⟩⟩)

end Step

/-! ### The invariant -/

section Invariant

variable {s t u : State} {i : Instr}

/-- A fault of R201 keeps the invariant. -/
theorem State.Inv.withFault (h : s.Inv) (w : Word) (r : Raise) : (s.withFault w r).Inv :=
  { h with fault := .inr r.cause.code_bounds }

/-- Counting the timers keeps the invariant. -/
theorem State.Inv.tick (h : s.Inv) : s.tick.Inv := { h with }

theorem pc_add_two_toNat (hpc : s.pc.toNat ≤ 0xFFE) : (s.pc + 2).toNat = s.pc.toNat + 2 := by
  bv_omega

/-- R26: `PC` stays at most 0x10FE, the highest target of Bnnn. -/
theorem pcAfter_toNat_le (h : s.Inv) (hpc : s.pc.toNat ≤ 0xFFE) (d : Decoded) : (s.pcAfter d).toNat ≤ 0x10FE := by
  have h2 : (s.pc + 2).toNat ≤ 0x10FE := by bv_omega
  have h4 : (s.pc + 4).toNat ≤ 0x10FE := by bv_omega
  have skip : ∀ (c : Prop) [Decidable c], (if c then s.pc + 4 else s.pc + 2).toNat ≤ 0x10FE := fun c _ => by
    split
    · exact h4
    · exact h2
  cases d with
  | nop => exact h2
  | instr i =>
    cases i
    case jpAddr nnn | callAddr nnn =>
      have := nnn.isLt
      simp only [State.pcAfter, BitVec.toNat_ofNat]
      omega
    case jpV0 nnn =>
      have := nnn.isLt
      have := (s.getV V0).isLt
      simp only [State.pcAfter, BitVec.toNat_ofNat]
      omega
    case ret =>
      have := h.stack ⟨s.sp.val - 1, by omega⟩
      exact Nat.le_trans this (by decide)
    case seByte | sneByte | seReg | sneReg | skp | sknp => exact skip _
    case ldRegK x =>
      simp only [State.pcAfter]
      split
      · exact h2
      · exact h.pc
    all_goals exact h2

/-- R26: a handler pushes nothing but its own `PC`, so the return addresses stay at most 0x1000. -/
theorem exec_stack_le (h : exec i s = .next t) (hpc : s.pc.toNat ≤ 0x1000)
    (hs : ∀ j : Fin 16, (s.stack[j.val]'j.isLt).toNat ≤ 0x1000) (j : Fin 16) :
    (t.stack[j.val]'j.isLt).toNat ≤ 0x1000 := by
  obtain hstack | ⟨hlt, hstack⟩ := exec_stack h
  · simpa only [hstack] using hs j
  · simp only [hstack, Vector.getElem_set]
    split
    · exact hpc
    · exact hs j

/-- NOP keeps the invariant: the fetch advances `PC` and loads OPCODE. -/
theorem State.Inv.fetched (h : s.Inv) (hpc : s.pc.toNat ≤ 0xFFE) : s.fetched.Inv :=
  { h with pc := pcAfter_toNat_le h hpc .nop }

/-- An instruction that raises nothing keeps the invariant. -/
theorem State.Inv.exec_fetched (h : s.Inv) (hpc : s.pc.toNat ≤ 0xFFE) (hr : s.fetched.raises i = none)
    (hx : exec i s.fetched = .next u) (hf : u.fault = s.fault) : u.Inv where
  memory := exec_memory_wf hx h.memory
  params := by rw [exec_params hx]; exact h.params
  fault := by rw [hf]; exact h.fault
  pc := by rw [exec_pc hx hr]; exact pcAfter_toNat_le h hpc _
  stack := exec_stack_le hx (by rw [State.fetched_pc, pc_add_two_toNat hpc]; omega) h.stack

/-- Initialisation meets the invariant on a machine whose parameters are as R10 asks. -/
theorem State.initial_inv {p : Params} (hp : p.WellFormed) (g : Rng) : (State.initial p g).Inv where
  memory := ⟨.nil, fun _ hc => nomatch hc⟩
  params := hp
  fault := .inl rfl
  pc := show entry.toNat ≤ 0x10FE by decide
  stack := fun j => by simp [State.initial]

end Invariant

/-! ### State that no handler reads -/

section Unread

/-- `s` with another `ST` and another byte source. -/
def State.withUnread (s : State) (b : Byte) (g : Rng) : State := { s with st := b, rng := g }

variable {s t : State} {i : Instr} (b : Byte) (g : Rng)

/-- What an instruction raises does not depend on `ST` and the byte source. -/
theorem State.raises_withUnread (s : State) (i : Instr) : (s.withUnread b g).raises i = s.raises i := by
  cases i <;> rfl

theorem State.skipIf_withUnread (s : State) (c : Bool) :
    (s.withUnread b g).skipIf c = (s.skipIf c).withUnread b g := by
  rw [State.skipIf_eq, State.skipIf_eq]; rfl

theorem State.writeBytes_withUnread (s : State) (a : Nat) (bs : List Byte) :
    (s.withUnread b g).writeBytes a bs = (s.writeBytes a bs).withUnread b g := by
  induction bs generalizing s a with
  | nil => rfl
  | cons c cs ih => exact ih (s.writeByte a c) (a + 1)

theorem State.foldl_setV_withUnread (f : Reg → Byte) (rs : List Reg) (s : State) :
    rs.foldl (fun t j => t.setV j (f j)) (s.withUnread b g) =
      (rs.foldl (fun t j => t.setV j (f j)) s).withUnread b g := by
  induction rs generalizing s with
  | nil => rfl
  | cons r rs ih => exact ih (s.setV r (f r))

theorem State.loadBlock_withUnread (s : State) (x : Reg) :
    (s.withUnread b g).loadBlock x = (s.loadBlock x).withUnread b g :=
  foldl_setV_withUnread b g (fun j => s.readByte (s.i.toNat + j.val)) (regsUpTo x) s

/-- The flag-then-result order carries along what its result computation does not read. -/
theorem State.flagThenResult_withUnread (s : State) (x : Reg) (flag : Byte) (result : State → Byte)
    (hres : ∀ t : State, result (t.withUnread b g) = result t) :
    (s.withUnread b g).flagThenResult x flag result = (s.flagThenResult x flag result).withUnread b g := by
  have order : (s.withUnread b g).params.aliasOrder = s.params.aliasOrder := rfl
  have afterFlag : (s.withUnread b g).setV VF flag = (s.setV VF flag).withUnread b g := rfl
  unfold State.flagThenResult
  rw [order, afterFlag]
  cases s.params.aliasOrder <;> (simp only [hres]; rfl)

/-- No handler but those of Fx18 and Cxkk depends on `ST` or on the byte source: all others carry them along. -/
theorem exec_withUnread (h : exec i s = .next t) (hST : ∀ x, i ≠ .ldSTReg x) (hRnd : ∀ x kk, i ≠ .rndByte x kk) :
    exec i (s.withUnread b g) = .next (t.withUnread b g) := by
  obtain ⟨r, hr, rfl⟩ | ⟨hr, _⟩ := exec_outcome h
  · exact exec_of_raises (by rwa [State.raises_withUnread])
  cases i
  case ldSTReg x => exact absurd rfl (hST x)
  case rndByte x kk => exact absurd rfl (hRnd x kk)
  case ret =>
    have hsp := s.raises_ret_none.mp hr
    obtain rfl := exec_next_inj h (exec_ret_of_pos s hsp)
    exact exec_ret_of_pos (s.withUnread b g) hsp
  case callAddr nnn =>
    have hsp := (s.raises_callAddr_none nnn).mp hr
    obtain rfl := exec_next_inj h (exec_callAddr_of_lt s nnn hsp)
    exact exec_callAddr_of_lt (s.withUnread b g) nnn hsp
  case skp x =>
    have hx := (s.raises_skp_none x).mp hr
    obtain rfl := exec_next_inj h (exec_skp_of_lt s x hx)
    rw [exec_skp_of_lt (s.withUnread b g) x hx, State.skipIf_withUnread]
    rfl
  case sknp x =>
    have hx := (s.raises_sknp_none x).mp hr
    obtain rfl := exec_next_inj h (exec_sknp_of_lt s x hx)
    rw [exec_sknp_of_lt (s.withUnread b g) x hx, State.skipIf_withUnread]
    rfl
  case drw x y n =>
    have hfit := (s.raises_drw_none x y n).mp hr
    obtain rfl := exec_next_inj h (exec_drw_of_fits s x y n hfit)
    exact exec_drw_of_fits (s.withUnread b g) x y n hfit
  case ldBcd x =>
    have hfit := (s.raises_ldBcd_none x).mp hr
    obtain rfl := exec_next_inj h (exec_ldBcd_of_fits s x hfit)
    rw [exec_ldBcd_of_fits (s.withUnread b g) x hfit, State.writeBytes_withUnread]
    rfl
  case storeRegs x =>
    have hfit := (s.raises_storeRegs_none x).mp hr
    obtain rfl := exec_next_inj h (exec_storeRegs_of_fits s x hfit)
    rw [exec_storeRegs_of_fits (s.withUnread b g) x hfit, State.writeBytes_withUnread]
    rfl
  case loadRegs x =>
    have hfit := (s.raises_loadRegs_none x).mp hr
    obtain rfl := exec_next_inj h (exec_loadRegs_of_fits s x hfit)
    rw [exec_loadRegs_of_fits (s.withUnread b g) x hfit, State.loadBlock_withUnread]
  case ldRegK x =>
    have hlow : (s.withUnread b g).lowestKey = s.lowestKey := rfl
    cases hk : s.lowestKey with
    | some k =>
      obtain rfl := exec_next_inj h (exec_ldRegK_of_some s x k hk)
      exact exec_ldRegK_of_some _ x k (hlow.trans hk)
    | none =>
      obtain rfl := exec_next_inj h (exec_ldRegK_of_none s x hk)
      exact exec_ldRegK_of_none _ x (hlow.trans hk)
  case seByte | sneByte | seReg | sneReg =>
    obtain rfl := Host.Outcome.next.inj h
    exact congrArg Host.Outcome.next (s.skipIf_withUnread b g _)
  case subReg | shrReg | subnReg | shlReg =>
    obtain rfl := Host.Outcome.next.inj h
    exact congrArg Host.Outcome.next (s.flagThenResult_withUnread b g _ _ _ fun _ => rfl)
  all_goals
    obtain rfl := Host.Outcome.next.inj h
    rfl

/-- Every handler but that of Fx18 carries `ST` along unread (R31). -/
theorem exec_withST (h : exec i s = .next t) (hST : ∀ x, i ≠ .ldSTReg x) :
    exec i { s with st := b } = .next { t with st := b } := by
  by_cases hRnd : ∃ x kk, i = .rndByte x kk
  · obtain ⟨x, kk, rfl⟩ := hRnd
    obtain rfl := Host.Outcome.next.inj h
    rfl
  · have hOther : ∀ x kk, i ≠ .rndByte x kk := fun x kk e => hRnd ⟨x, kk, e⟩
    have hkeep : t.withUnread b s.rng = { t with st := b } := by rw [← exec_rng h hOther]; rfl
    exact (exec_withUnread b s.rng h hST hOther).trans (congrArg Host.Outcome.next hkeep)

end Unread

end Sys2Proof.Machine
end

section
/-! SUPPORT. The statements about the state: what every step and every handler keeps, and the state after initialisation. -/

namespace Sys2Proof.Proofs

open Sys2Proof.Machine

/-- Settles O15: by what a step can leave, a halted core, a fault alone, NOP, or an instruction that raised nothing. -/
theorem stepKeepsInvariant : Obligations.StepKeepsInvariant := by
  unfold Obligations.StepKeepsInvariant
  intro s t hinv h
  obtain ⟨_, rfl⟩ | ⟨w, r, rfl⟩ | ⟨_, hpc, ⟨_, rfl⟩ | ⟨i, u, _, hr, hx, hf, rfl⟩⟩ := step_outcome h
  · exact hinv
  · exact hinv.withFault w r
  · exact (hinv.fetched hpc).tick
  · exact (hinv.exec_fetched hpc hr hx hf).tick

/-- Settles O13: only NOP and an instruction that raised nothing leave a running core running. -/
theorem programCounterAfterStep : Obligations.ProgramCounterAfterStep := by
  unfold Obligations.ProgramCounterAfterStep
  intro s t hrun h hrun'
  obtain ⟨hhalted, _⟩ | ⟨w, r, rfl⟩ | ⟨_, _, ⟨hd, rfl⟩ | ⟨i, u, hd, hr, hx, _, rfl⟩⟩ := step_outcome h
  · exact absurd hrun hhalted
  · exact absurd hrun' (s.withFault_cause_ne_zero w r)
  · rw [hd]; rfl
  · rw [hd]; exact (exec_pc hx hr :)

/-- Settles O14: a handler that raises changes `PC` and the fault status, one that does not stays in its frame. -/
theorem everyInstructionKeepsItsFrame : Obligations.EveryInstructionKeepsItsFrame := by
  unfold Obligations.EveryInstructionKeepsItsFrame
  intro i s t hm h
  have hout := exec_sameMemoryOutside h hm
  have hbig := exec_sameMemory_of_not_fits h
  obtain ⟨r, hr, rfl⟩ | ⟨hr, hf⟩ := exec_outcome h
  · have raised : s.raises i ≠ none := by simp [hr]
    exact ⟨fun _ _ => rfl, fun _ _ _ => rfl, fun _ => ⟨rfl, fun _ => rfl⟩, fun _ => rfl, fun _ => rfl, fun _ => hout,
      hbig, fun _ _ => rfl, fun _ => rfl, fun e => absurd e raised, rfl, rfl, rfl⟩
  · have hframe := exec_frame h hr
    exact ⟨exec_getV_of_not_dest h hr, hframe.index, fun hCall => ⟨hframe.stack hCall, hframe.sp hCall⟩, hframe.dt,
      hframe.st, fun _ => hout, hbig, hframe.fb, hframe.rng, fun _ => hf, hframe.keys, hframe.opcode, hframe.params⟩

/-- Settles O18: Fx18 overwrites `ST` from a register, Cxkk and every other instruction carry it along. -/
theorem soundTimerIsNeverRead : Obligations.SoundTimerIsNeverRead := by
  unfold Obligations.SoundTimerIsNeverRead
  intro i s t b h
  cases i
  case ldSTReg x => exact h
  all_goals exact exec_withST b h fun _ e => nomatch e

/-- Settles O22: the slot RET reads is the one CALL wrote. -/
theorem returnUndoesCall : Obligations.ReturnUndoesCall := by
  unfold Obligations.ReturnUndoesCall
  intro s t u nnn hlt hcall hsp hstack
  obtain rfl := exec_next_inj hcall (exec_callAddr_of_lt s nnn hlt)
  have hpos : u.sp.val ≠ 0 := by simp [hsp]
  refine ⟨_, exec_ret_of_pos u hpos, ?_, ?_⟩
  · simp [hstack, hsp]
  · simp [hsp]

/-- Settles O16: both states are initial states, with parameters as R10 asks. -/
theorem initialStateMeetsInvariant : Obligations.InitialStateMeetsInvariant :=
  ⟨State.initial_inv (by decide) _, fun _ _ _ hp => State.initial_inv hp _⟩

/-- Settles O45: field by field; memory lists nothing, so it reads as the font and 0. -/
theorem initialisationLeavesResetState : Obligations.InitialisationLeavesResetState := by
  unfold Obligations.InitialisationLeavesResetState
  refine ⟨?_, 0, [], rfl⟩
  rintro p seed forced s rfl
  refine ⟨fun r => ?_, rfl, rfl, rfl, fun j hj => ?_, rfl, rfl, fun c r => ?_, fun k => ?_, rfl, rfl, rfl, rfl, rfl, rfl,
    fun j hj => ?_, fun a ha => ?_⟩
  · simp [portInit, State.initial, State.getV]
  · simp [portInit, State.initial, hj]
  · simp [portInit, State.initial, Framebuffer.get, Framebuffer.blank]
  · simp [portInit, State.initial, State.keyPressed]
  · show some (resetByte p _) = _
    simp [resetByte, hj]
  · show resetByte p a = 0
    exact dif_neg (by omega)

end Sys2Proof.Proofs
end

section
/-! SUPPORT. What a fetch reads, when a range check fails, how a stored block reads, and what a load does. -/

namespace Sys2Proof.Machine

/-! ### The fetch -/

section Fetch

variable {s : State}

/-- R51: the byte at the lower address is bits 15..8 of the word. -/
theorem wordOfBytes_toNat (hi lo : Byte) : (wordOfBytes hi lo).toNat = 256 * hi.toNat + lo.toNat := by
  rw [wordOfBytes, BitVec.toNat_append, ← Nat.shiftLeft_add_eq_or_of_lt lo.isLt, Nat.shiftLeft_eq]
  omega

theorem State.fetchWord_toNat (s : State) :
    s.fetchWord.toNat = 256 * (s.readByte s.pc.toNat).toNat + (s.readByte (s.pc.toNat + 1)).toNat :=
  wordOfBytes_toNat _ _

/-- A fetch out of range raises FETCH_RANGE with the first bad address and commits nothing else (R55, R90). -/
theorem step_of_fetch_out_of_range (hrun : s.fault.cause = 0) (hpc : s.pc.toNat > 0xFFE) :
    step s = .next (s.withFault 0 ⟨.fetchRange, BitVec.ofNat 17 (max s.pc.toNat 0x1000)⟩) := by
  have hhalted : s.halted = false := State.halted_eq_false_iff.mpr hrun
  simp only [step, hhalted, State.badFetch_eq, if_pos hpc]
  rfl

end Fetch

/-! ### The range check of the memory instructions -/

section Range

variable {s : State} {i : Instr} {len : Nat}

/-- The instruction's effective addresses are the `len` addresses from `I` on (R54). -/
def AccessesBlock (i : Instr) (len : Nat) : Prop :=
  (∃ x y n, i = .drw x y n ∧ len = n.toNat) ∨ (∃ x, i = .ldBcd x ∧ len = 3) ∨
    (∃ x, i = .storeRegs x ∧ len = x.val + 1) ∨ ∃ x, i = .loadRegs x ∧ len = x.val + 1

/-- A memory instruction raises MEM_RANGE exactly when its block is not empty and does not fit (R55). -/
theorem AccessesBlock.raises_eq (h : AccessesBlock i len) (s : State) :
    s.raises i = if len ≠ 0 ∧ s.i.toNat + len > 0x1000
      then some ⟨.memRange, BitVec.ofNat 17 (max s.i.toNat 0x1000)⟩ else none := by
  obtain ⟨x, y, n, rfl, rfl⟩ | ⟨x, rfl, rfl⟩ | ⟨x, rfl, rfl⟩ | ⟨x, rfl, rfl⟩ := h
  · rfl
  all_goals simp [State.raises, Nat.add_assoc]

/-- The first bad address of a block is `I` or 0x1000, whichever is higher. -/
theorem first_bad_eq_max {base j : Nat} (hj : base + j > 0xFFF) (hfirst : ∀ m < j, base + m ≤ 0xFFF) :
    max base 0x1000 = base + j := by
  cases j with
  | zero => omega
  | succ m =>
    have := hfirst m m.lt_succ_self
    omega

/-- With a bad address in its block, a memory instruction raises MEM_RANGE with the first of them. -/
theorem AccessesBlock.exec_of_bad (h : AccessesBlock i len) {j : Nat} (hlen : j < len)
    (hj : s.i.toNat + j > 0xFFF) (hfirst : ∀ m < j, s.i.toNat + m ≤ 0xFFF) :
    exec i s = .next (s.raise ⟨.memRange, BitVec.ofNat 17 (s.i.toNat + j)⟩) := by
  apply exec_of_raises
  rw [h.raises_eq, if_pos (by omega), first_bad_eq_max hj hfirst]

/-- With all its addresses in range, a memory instruction raises nothing. -/
theorem AccessesBlock.raises_none (h : AccessesBlock i len) (hfit : ∀ j < len, s.i.toNat + j ≤ 0xFFF) :
    s.raises i = none := by
  rw [h.raises_eq, if_neg]
  rintro ⟨hlen, hbig⟩
  have := hfit (len - 1) (by omega)
  omega

/-- An instruction that raises nothing completes with the fault status as it was. -/
theorem exec_of_raises_none (h : s.raises i = none) : ∃ t, exec i s = .next t ∧ t.fault = s.fault := by
  obtain ⟨r, hr, _⟩ | ⟨_, hx⟩ := exec_cases i s
  · rw [h] at hr; cases hr
  · exact hx

end Range

/-! ### Reading a stored block -/

section Block

variable {s t : State}

/-- After Fx55 the block at `I` reads as V0 to Vx (R184). -/
theorem readByte_of_exec_storeRegs {x j : Reg} (h : exec (.storeRegs x) s = .next t)
    (hm : Memory.wf s.params s.mem) (hfit : s.i.toNat + x.val ≤ 0xFFF) (hj : j ≤ x) :
    t.readByte (s.i.toNat + j.val) = s.getV j := by
  have hjx : j.val ≤ x.val := hj
  have hlen : ((regsUpTo x).map s.getV).length = x.val + 1 := by simp
  have hin : s.i.toNat + ((regsUpTo x).map s.getV).length ≤ Config.memSize := by
    rw [hlen, Config.memSize]; omega
  obtain rfl := exec_next_inj h (exec_storeRegs_of_fits s x (by omega))
  rw [s.readByte_writeBytes hm _ _ hin, dif_pos (by rw [hlen]; omega)]
  simp [getElem_regsUpTo]

end Block

/-! ### Loading a program -/

section Load

variable {image : List Byte}

/-- An image of at most 3584 bytes is written at `ENTRY` (R67). -/
theorem portLoad_of_fits (s : State) (h : image.length ≤ 3584) :
    portLoad (some image) s = .ok (s.writeBytes 0x200 image) :=
  if_pos h

/-- A longer image is refused (R67). -/
theorem portLoad_of_too_large (s : State) (h : image.length > 3584) :
    portLoad (some image) s = .error .loadTooLarge :=
  if_neg (Nat.not_le.mpr h)

/-- Right after `Init`, a `Load` that succeeds leaves the loaded core (R219). -/
theorem Session.call_load_ok {h : Session} {source : Option (List Byte)} {t : State} (hp : h.phase = .initialised)
    (hload : portLoad source h.core = .ok t) :
    h.call (.load source) = ({ phase := .loaded, core := t }, none) := by
  simp only [Session.call, if_pos hp, hload]

/-- Right after `Init`, a `Load` that fails surfaces its error and leaves the core as it was (R214). -/
theorem Session.call_load_error {h : Session} {source : Option (List Byte)} {e : PortError}
    (hp : h.phase = .initialised) (hload : portLoad source h.core = .error e) :
    h.call (.load source) = ({ h with phase := .startupFailed }, some e) := by
  simp only [Session.call, if_pos hp, hload]

/-- An image of at most 3584 bytes at `ENTRY` lies in memory. -/
theorem image_in_memory (h : image.length ≤ 3584) : 0x200 + image.length ≤ Config.memSize :=
  Nat.add_le_add_left h 0x200

/-- R10: the font lies below `ENTRY`, so from there on memory is 0 after initialisation. -/
theorem resetByte_of_ge_entry {p : Params} (hp : p.WellFormed) {a : Nat} (ha : 0x200 ≤ a) : resetByte p a = 0 :=
  dif_neg (by omega)

/-- After initialisation the first fetch reads 0x0000. -/
theorem fetchWord_portInit {p : Params} (hp : p.WellFormed) (seed : Nat) (forced : List Byte) :
    (portInit p seed forced).fetchWord = 0 := by
  show wordOfBytes (resetByte p 0x200) (resetByte p 0x201) = 0
  rw [resetByte_of_ge_entry hp (by decide), resetByte_of_ge_entry hp (by decide)]
  rfl

end Load

end Sys2Proof.Machine
end

section
/-! SUPPORT. The statements about memory: the fetch, the range checks, fetching stored bytes, and the load. -/

namespace Sys2Proof.Proofs

open Sys2Proof.Machine

/-- Settles O6: by what a step can leave; every case that leaves the core running loaded OPCODE in the fetch. -/
theorem fetchIsBigEndian : Obligations.FetchIsBigEndian := by
  unfold Obligations.FetchIsBigEndian
  refine ⟨State.fetchWord_toNat, fun s t hrun h hrun' => ?_⟩
  obtain ⟨hhalted, _⟩ | ⟨w, r, rfl⟩ | ⟨_, _, ⟨_, rfl⟩ | ⟨i, u, _, hr, hx, _, rfl⟩⟩ := step_outcome h
  · exact absurd hrun hhalted
  · exact absurd hrun' (s.withFault_cause_ne_zero w r)
  · rfl
  · exact (exec_frame hx hr).opcode

/-- Settles O8: the range check comes first, and names `I` or 0x1000, whichever is higher. -/
theorem rangeChecksPrecedeEveryWrite : Obligations.RangeChecksPrecedeEveryWrite := by
  unfold Obligations.RangeChecksPrecedeEveryWrite
  refine ⟨fun _ => step_of_fetch_out_of_range, fun s i len hblock => ?_⟩
  have hblock : AccessesBlock i len := hblock
  exact ⟨fun j hlen hj hfirst => hblock.exec_of_bad hlen hj hfirst,
    fun hfit => exec_of_raises_none (hblock.raises_none hfit)⟩

/-- Settles O44: the two bytes fetched are read back from the stored block. -/
theorem storedBytesAreFetched : Obligations.StoredBytesAreFetched := by
  unfold Obligations.StoredBytesAreFetched
  intro s t u x j k hm hfit hx hk hkx hmem hparams hpc
  have hread : ∀ q ≤ x, u.readByte (s.i.toNat + q.val) = s.getV q := fun q hq =>
    (State.readByte_congr hparams hmem _).trans (readByte_of_exec_storeRegs hx hm hfit hq)
  have hjx : j ≤ x := le_trans (Fin.le_def.mpr (by omega)) hkx
  have hnext : u.pc.toNat + 1 = s.i.toNat + k.val := by omega
  rw [State.fetchWord_toNat, hnext, hpc, hread j hjx, hread k hkx]

/-- Settles O46: clause by clause, from what `portLoad` answers and the phase each call of the session asks for. -/
theorem loadCopiesProgramVerbatim : Obligations.LoadCopiesProgramVerbatim := by
  unfold Obligations.LoadCopiesProgramVerbatim
  refine ⟨fun s image hm hlen => ?_, fun s _ hlen => portLoad_of_too_large s hlen, fun _ => rfl,
    fun h image e hp he => ?_, fun h g image again hp hg => ?_, fun p seed forced hp => ?_⟩
  · have hread := s.readByte_writeBytes hm 0x200 image (image_in_memory hlen)
    refine ⟨_, portLoad_of_fits s hlen, fun j hj => ?_, fun a ha => ?_, ?_, ?_⟩
    · rw [hread, dif_pos (by omega)]
      simp [hj]
    · rw [hread, dif_neg (by omega)]
    · rw [State.writeBytes_eq]
    · rw [State.writeBytes_eq]
      exact s.writeBytes_wf hm _ _ (image_in_memory hlen)
  · exact ⟨_, Session.call_load_error hp he, rfl, rfl⟩
  · cases hload : portLoad image h.core with
    | ok t =>
      obtain rfl := (Prod.mk.inj ((Session.call_load_ok hp hload).symm.trans hg)).1
      rfl
    | error e => cases (Prod.mk.inj ((Session.call_load_error hp hload).symm.trans hg)).2
  · have hword := fetchWord_portInit hp seed forced
    exact ⟨_, portLoad_of_fits _ (Nat.zero_le _), hword, congrArg decode hword⟩

end Sys2Proof.Proofs
end

section
/-! SUPPORT. A word and its fields, what a mask lets through, the words that decode to an instruction, and the bits that say
whether a word is mapped. -/

namespace Sys2Proof.Laws

/-! ### A word is made of its fields -/

section WordFields

variable {w : Word} {fam n : Nibble} {kk : Byte}

theorem encodeA_fields (w : Word) : encodeA (family w) (fieldNNN w) = w :=
  BitVec.extractLsb'_append_extractLsb'

theorem encodeXK_fields (w : Word) : encodeXK (family w) (fieldX w) (fieldKK w) = w := by
  have highByte : (family w ++ (BitVec.ofFin (fieldX w) : Nibble) : BitVec 8) = w.extractLsb' 8 8 :=
    BitVec.extractLsb'_append_extractLsb'_eq_extractLsb' rfl
  rw [encodeXK, highByte]
  exact BitVec.extractLsb'_append_extractLsb'

theorem encodeXYN_fields (w : Word) : encodeXYN (family w) (fieldX w) (fieldY w) (fieldN w) = w := by
  have lowByte : ((BitVec.ofFin (fieldY w) : Nibble) ++ fieldN w : BitVec 8) = fieldKK w :=
    BitVec.extractLsb'_append_extractLsb'_eq_extractLsb' rfl
  rw [encodeXYN_eq, lowByte, encodeXK_fields]

/-- A word of family `fam`, in format A. -/
theorem eq_encodeA (hf : (family w).toNat = fam.toNat) : w = encodeA fam (fieldNNN w) := by
  rw [← BitVec.eq_of_toNat_eq hf, encodeA_fields]

/-- A word of family `fam` with the low byte `kk`, in format XK. -/
theorem eq_encodeXK (hf : (family w).toNat = fam.toNat) (hk : (fieldKK w).toNat = kk.toNat) :
    w = encodeXK fam (fieldX w) kk := by
  rw [← BitVec.eq_of_toNat_eq hf, ← BitVec.eq_of_toNat_eq hk, encodeXK_fields]

/-- A word of family `fam` with the low nibble `n`, in formats XY, XYK and XYN. -/
theorem eq_encodeXYN (hf : (family w).toNat = fam.toNat) (hn : (fieldN w).toNat = n.toNat) :
    w = encodeXYN fam (fieldX w) (fieldY w) n := by
  rw [← BitVec.eq_of_toNat_eq hf, ← BitVec.eq_of_toNat_eq hn, encodeXYN_fields]

end WordFields

/-! ### What a mask lets through -/

section Masks

variable {w v m : Word}

/-- A mask acts on each field by itself. -/
theorem encodeXYN_and (fam n a d : Nibble) (x y b c : Reg) :
    encodeXYN fam x y n &&& encodeXYN a b c d =
      ((fam &&& a) ++ ((BitVec.ofFin x : Nibble) &&& BitVec.ofFin b) : BitVec 8) ++
        (((BitVec.ofFin y : Nibble) &&& BitVec.ofFin c) ++ (n &&& d) : BitVec 8) := by
  rw [encodeXYN, encodeXYN, BitVec.and_append, BitVec.and_append, BitVec.and_append]

/-- R78: a mask of the family and the low nibble does not see the two fields between. -/
theorem encodeXYN_and_F00F (fam n : Nibble) (x y x' y' : Reg) :
    encodeXYN fam x y n &&& 0xF00F = encodeXYN fam x' y' n &&& 0xF00F := by
  rw [show (0xF00F : Word) = encodeXYN 0xF 0 0 0xF by decide, encodeXYN_and, encodeXYN_and]
  simp

/-- R77: a mask of all but the low nibble does not see the low nibble. -/
theorem encodeXYN_and_FFF0 (fam n n' : Nibble) (x y : Reg) :
    encodeXYN fam x y n &&& 0xFFF0 = encodeXYN fam x y n' &&& 0xFFF0 := by
  rw [show (0xFFF0 : Word) = encodeXYN 0xF 0xF 0xF 0 by decide, encodeXYN_and, encodeXYN_and]
  simp

/-- R79: a mask of all but `y` does not see `y`. -/
theorem encodeXYN_and_FF0F (fam n : Nibble) (x y y' : Reg) :
    encodeXYN fam x y n &&& 0xFF0F = encodeXYN fam x y' n &&& 0xFF0F := by
  rw [show (0xFF0F : Word) = encodeXYN 0xF 0xF 0 0xF by decide, encodeXYN_and, encodeXYN_and]
  simp

/-- Words that agree on a mask agree on every run of bits the mask covers. -/
theorem extractLsb'_eq_of_and_eq (h : w &&& m = v &&& m) {k len : Nat}
    (hm : m.extractLsb' k len = BitVec.allOnes len) : w.extractLsb' k len = v.extractLsb' k len := by
  have hand := congrArg (·.extractLsb' k len) h
  simpa only [BitVec.extractLsb'_and, hm, BitVec.and_allOnes] using hand

theorem family_eq_of_and_eq (h : w &&& m = v &&& m) (hm : family m = 0xF) : family w = family v :=
  extractLsb'_eq_of_and_eq h hm

theorem fieldX_eq_of_and_eq (h : w &&& m = v &&& m) (hm : fieldX m = 0xF) : fieldX w = fieldX v :=
  congrArg BitVec.toFin (extractLsb'_eq_of_and_eq h (BitVec.eq_of_toFin_eq hm))

theorem fieldY_eq_of_and_eq (h : w &&& m = v &&& m) (hm : fieldY m = 0xF) : fieldY w = fieldY v :=
  congrArg BitVec.toFin (extractLsb'_eq_of_and_eq h (BitVec.eq_of_toFin_eq hm))

theorem fieldN_eq_of_and_eq (h : w &&& m = v &&& m) (hm : fieldN m = 0xF) : fieldN w = fieldN v :=
  extractLsb'_eq_of_and_eq h hm

theorem fieldKK_eq_of_and_eq (h : w &&& m = v &&& m) (hm : fieldKK m = 0xFF) : fieldKK w = fieldKK v :=
  extractLsb'_eq_of_and_eq h hm

theorem eq_of_and_FFFF_eq (h : w &&& 0xFFFF = v &&& 0xFFFF) : w = v := by
  have hand (u : Word) : u &&& 0xFFFF = u := BitVec.and_allOnes
  rwa [hand, hand] at h

end Masks

/-! ### Decode of the standard word -/

/-- Every instruction's standard word selects its row and decodes to it. -/
theorem roundTrip : ∀ i, RoundTrip.Statement i
  | .cls => RoundTrip.cls
  | .ret => RoundTrip.ret
  | .jpAddr nnn => RoundTrip.jpAddr nnn
  | .callAddr nnn => RoundTrip.callAddr nnn
  | .seByte x kk => RoundTrip.seByte x kk
  | .sneByte x kk => RoundTrip.sneByte x kk
  | .seReg x y => RoundTrip.seReg x y
  | .ldByte x kk => RoundTrip.ldByte x kk
  | .addByte x kk => RoundTrip.addByte x kk
  | .ldReg x y => RoundTrip.ldReg x y
  | .orReg x y => RoundTrip.orReg x y
  | .andReg x y => RoundTrip.andReg x y
  | .xorReg x y => RoundTrip.xorReg x y
  | .addReg x y => RoundTrip.addReg x y
  | .subReg x y => RoundTrip.subReg x y
  | .shrReg x y => RoundTrip.shrReg x y
  | .subnReg x y => RoundTrip.subnReg x y
  | .shlReg x y => RoundTrip.shlReg x y
  | .sneReg x y => RoundTrip.sneReg x y
  | .ldI nnn => RoundTrip.ldI nnn
  | .jpV0 nnn => RoundTrip.jpV0 nnn
  | .rndByte x kk => RoundTrip.rndByte x kk
  | .drw x y n => RoundTrip.drw x y n
  | .skp x => RoundTrip.skp x
  | .sknp x => RoundTrip.sknp x
  | .ldRegDT x => RoundTrip.ldRegDT x
  | .ldRegK x => RoundTrip.ldRegK x
  | .ldDTReg x => RoundTrip.ldDTReg x
  | .ldSTReg x => RoundTrip.ldSTReg x
  | .addI x => RoundTrip.addI x
  | .ldFont x => RoundTrip.ldFont x
  | .ldBcd x => RoundTrip.ldBcd x
  | .storeRegs x => RoundTrip.storeRegs x
  | .loadRegs x => RoundTrip.loadRegs x

theorem opcodeRow_selectedBy_encode (i : Instr) : (opcodeRow i).selectedBy (encode i) :=
  (roundTrip i).1

theorem opcodeRow_mem_opcodeRows (i : Instr) : opcodeRow i ∈ opcodeRows :=
  (roundTrip i).2.1

theorem decode_encode (i : Instr) : decode (encode i) = .instr i :=
  (roundTrip i).2.2

/-! ### The words that decode to an instruction -/

section ExaminedBits

variable {w v : Word} {i : Instr}

/-- The word agrees with the instruction's standard word on the bits decode examines. -/
def Agrees (i : Instr) (w : Word) : Prop := w &&& examinedBits i = encode i &&& examinedBits i

theorem Agrees.of_eq (hv : Agrees i v) (h : w = v) : Agrees i w :=
  h ▸ hv

theorem Agrees.of_eq_encode (h : w = encode i) : Agrees i w :=
  .of_eq rfl h

theorem agrees_of_decodeFamily0 (hf : (family w).toNat = 0x0) (h : decodeFamily0 w = .instr i) : Agrees i w := by
  unfold decodeFamily0 at h
  split at h <;> cases h <;> rename_i hn
  case h_1 => exact .of_eq (encodeXYN_and_F00F 0x0 0x0 _ _ 0x0 0xE) (eq_encodeXYN hf hn)
  case h_2 => exact .of_eq (encodeXYN_and_F00F 0x0 0xE _ _ 0x0 0xE) (eq_encodeXYN hf hn)

theorem agrees_of_decodeFamily8 (hf : (family w).toNat = 0x8) (h : decodeFamily8 w = .instr i) : Agrees i w := by
  unfold decodeFamily8 at h
  dsimp only at h
  split at h <;> cases h <;> rename_i hn
  all_goals exact .of_eq_encode (eq_encodeXYN hf hn)

theorem agrees_of_decodeFamilyE (hf : (family w).toNat = 0xE) (h : decodeFamilyE w = .instr i) : Agrees i w := by
  unfold decodeFamilyE at h
  split at h <;> cases h <;> rename_i hn
  case h_1 => exact .of_eq (encodeXYN_and_FF0F 0xE 0xE _ _ 0x9) (eq_encodeXYN hf hn)
  case h_2 => exact .of_eq (encodeXYN_and_FF0F 0xE 0x1 _ _ 0xA) (eq_encodeXYN hf hn)

theorem agrees_of_decodeFamilyF (hf : (family w).toNat = 0xF) (h : decodeFamilyF w = .instr i) : Agrees i w := by
  unfold decodeFamilyF at h
  dsimp only at h
  split at h <;> cases h <;> rename_i hk
  all_goals exact .of_eq_encode (eq_encodeXK hf hk)

/-- A word agrees with the standard word of the instruction it decodes to. The split's cases `h_1` to `h_16` are the families
0x0 to 0xF. -/
theorem agrees_of_decode (h : decode w = .instr i) : Agrees i w := by
  unfold decode at h
  split at h
  case h_1 hf => exact agrees_of_decodeFamily0 hf h
  case h_9 hf => exact agrees_of_decodeFamily8 hf h
  case h_15 hf => exact agrees_of_decodeFamilyE hf h
  case h_16 =>
    have hf : (family w).toNat = 0xF := by grind [(family w).isLt]
    exact agrees_of_decodeFamilyF hf h
  all_goals
    cases h
    rename_i hf
  case h_6 | h_10 => exact .of_eq (encodeXYN_and_FFF0 _ _ 0x0 _ _) (eq_encodeXYN hf rfl)
  case h_2 | h_3 | h_11 | h_12 => exact .of_eq_encode (eq_encodeA hf)
  case h_14 => exact .of_eq_encode (eq_encodeXYN hf rfl)
  all_goals exact .of_eq_encode (eq_encodeXK hf rfl)

/-- A word that agrees with an instruction's standard word decodes to that instruction. -/
theorem decode_of_agrees (h : Agrees i w) : decode w = .instr i := by
  cases i
  case cls =>
    have hf : family w = 0x0 := family_eq_of_and_eq h rfl
    have hn : fieldN w = 0x0 := fieldN_eq_of_and_eq h rfl
    simp [decode, decodeFamily0, hf, hn]
  case ret =>
    have hf : family w = 0x0 := family_eq_of_and_eq h rfl
    have hn : fieldN w = 0xE := fieldN_eq_of_and_eq h rfl
    simp [decode, decodeFamily0, hf, hn]
  case seReg x y | sneReg x y =>
    change w &&& 0xFFF0 = _ &&& 0xFFF0 at h
    have hf := family_eq_of_and_eq h rfl
    have hx := fieldX_eq_of_and_eq h rfl
    have hy := fieldY_eq_of_and_eq h rfl
    simp [decode, hf, hx, hy, encode]
  case skp x | sknp x =>
    change w &&& 0xFF0F = _ &&& 0xFF0F at h
    have hf := family_eq_of_and_eq h rfl
    have hx := fieldX_eq_of_and_eq h rfl
    have hn := fieldN_eq_of_and_eq h rfl
    simp [decode, decodeFamilyE, hf, hx, hn, encode]
  all_goals
    obtain rfl := eq_of_and_FFFF_eq h
    exact decode_encode _

theorem decode_eq_instr_iff_agrees : decode w = .instr i ↔ Agrees i w :=
  ⟨agrees_of_decode, decode_of_agrees⟩

/-- Decode examines every bit the mask of the instruction's row looks at. -/
theorem examinedBits_and_mask (i : Instr) : examinedBits i &&& (opcodeRow i).mask = (opcodeRow i).mask := by
  cases i
  case cls | ret => exact BitVec.and_self
  case seReg | sneReg => exact (by decide : (0xFFF0 : Word) &&& 0xF000 = 0xF000)
  case skp | sknp => exact (by decide : (0xFF0F : Word) &&& 0xF00F = 0xF00F)
  all_goals exact BitVec.allOnes_and

/-- A word that agrees with an instruction's standard word selects the instruction's row. -/
theorem Agrees.selectedBy_opcodeRow (h : Agrees i w) : (opcodeRow i).selectedBy w := by
  have hmask := congrArg (· &&& (opcodeRow i).mask) h
  simp only [BitVec.and_assoc, examinedBits_and_mask] at hmask
  exact hmask.trans (opcodeRow_selectedBy_encode i)

end ExaminedBits

/-! ### The words that are mapped -/

section KeyBits

variable {w v : Word} {row : OpcodeRow}

/-- The bits that say which row of its family a word selects, and whether it selects one (R74, R75): the family and, in a
family with a sub-dispatch, its key. -/
def keyMask (fam : Nibble) : Word :=
  match fam.toNat with
  | 0x0 | 0x8 | 0xE => 0xF00F
  | 0xF => 0xF0FF
  | _ => 0xF000

theorem decodeFamily0_eq_nop_iff (hn : fieldN w = fieldN v) : decodeFamily0 w = .nop ↔ decodeFamily0 v = .nop := by
  rw [decodeFamily0, decodeFamily0, hn]

theorem decodeFamily8_eq_nop_iff (hn : fieldN w = fieldN v) : decodeFamily8 w = .nop ↔ decodeFamily8 v = .nop := by
  unfold decodeFamily8
  rw [hn]
  split <;> simp

theorem decodeFamilyE_eq_nop_iff (hn : fieldN w = fieldN v) : decodeFamilyE w = .nop ↔ decodeFamilyE v = .nop := by
  unfold decodeFamilyE
  rw [hn]
  split <;> simp

theorem decodeFamilyF_eq_nop_iff (hk : fieldKK w = fieldKK v) : decodeFamilyF w = .nop ↔ decodeFamilyF v = .nop := by
  unfold decodeFamilyF
  rw [hk]
  split <;> simp

theorem family_keyMask (fam : Nibble) : family (keyMask fam) = 0xF := by
  revert fam; decide

/-- Words that agree on the key bits are both mapped or both NOP. The split's cases are the families, as above. -/
theorem decode_eq_nop_iff_of_key (h : w &&& keyMask (family v) = v &&& keyMask (family v)) :
    decode w = .nop ↔ decode v = .nop := by
  have hf := family_eq_of_and_eq h (family_keyMask _)
  unfold decode
  rw [hf]
  split
  case h_1 hv => exact decodeFamily0_eq_nop_iff (fieldN_eq_of_and_eq h (by simp [keyMask, hv, fieldN]))
  case h_9 hv => exact decodeFamily8_eq_nop_iff (fieldN_eq_of_and_eq h (by simp [keyMask, hv, fieldN]))
  case h_15 hv => exact decodeFamilyE_eq_nop_iff (fieldN_eq_of_and_eq h (by simp [keyMask, hv, fieldN]))
  case h_16 =>
    have hv : (family v).toNat = 0xF := by grind [(family v).isLt]
    exact decodeFamilyF_eq_nop_iff (fieldKK_eq_of_and_eq h (by simp [keyMask, hv, fieldKK]))
  all_goals exact iff_of_false nofun nofun

/-- R83's table: a row masks the key bits of its family, its value has no bit outside its mask, and its value is mapped. -/
theorem opcodeRows_keyMask : ∀ row ∈ opcodeRows,
    row.mask = keyMask (family row.value) ∧ row.value &&& row.mask = row.value ∧ decode row.value ≠ .nop := by
  decide

/-- A word that selects a row agrees with the row's value on the key bits of their common family. -/
theorem key_of_selectedBy (hrow : row ∈ opcodeRows) (h : row.selectedBy w) :
    w &&& keyMask (family row.value) = row.value &&& keyMask (family row.value) ∧ family w = family row.value := by
  obtain ⟨hmask, hvalue, -⟩ := opcodeRows_keyMask row hrow
  have hkey : w &&& keyMask (family row.value) = row.value &&& keyMask (family row.value) := by
    rw [← hmask, hvalue]
    exact h
  exact ⟨hkey, family_eq_of_and_eq hkey (family_keyMask _)⟩

/-- A word that selects a row is mapped. -/
theorem decode_ne_nop_of_selectedBy (hrow : row ∈ opcodeRows) (h : row.selectedBy w) : decode w ≠ .nop := by
  obtain ⟨-, -, hmapped⟩ := opcodeRows_keyMask row hrow
  exact (decode_eq_nop_iff_of_key (key_of_selectedBy hrow h).1).not.mpr hmapped

/-- The row a word selects is determined by the word: its mask by the word's family, its value by the mask. -/
theorem row_eq_of_selectedBy (hrow : row ∈ opcodeRows) (h : row.selectedBy w) :
    row = ⟨w &&& keyMask (family w), keyMask (family w)⟩ := by
  obtain ⟨hmask, -, -⟩ := opcodeRows_keyMask row hrow
  rw [(key_of_selectedBy hrow h).2, ← hmask, h]

theorem opcodeRows_nodup : opcodeRows.Nodup := by
  decide

/-- R76, R83: a word is NOP exactly when it selects no row. -/
theorem decode_eq_nop_iff_unmapped : decode w = .nop ↔ ∀ row ∈ opcodeRows, ¬ row.selectedBy w := by
  constructor
  · exact fun hnop row hrow h => decode_ne_nop_of_selectedBy hrow h hnop
  · intro hnone
    cases hd : decode w with
    | nop => rfl
    | instr i => exact absurd (agrees_of_decode hd).selectedBy_opcodeRow (hnone _ (opcodeRow_mem_opcodeRows i))

end KeyBits

end Sys2Proof.Laws
end

section
/-! SUPPORT. The statements about the encoding, and the step of an unmapped word. -/

namespace Sys2Proof.Proofs

open Sys2Proof.Machine Sys2Proof.Laws

/-- Settles O1: a word decodes to an instruction exactly when it agrees with its standard word. -/
theorem decodeReadsExactlyExaminedBits : Obligations.DecodeReadsExactlyExaminedBits :=
  ⟨decode_encode, fun _ _ => decode_eq_instr_iff_agrees⟩

/-- Settles O2: the row a word selects is a function of the word. -/
theorem opcodeRowsSelectDecode : Obligations.OpcodeRowsSelectDecode := by
  unfold Obligations.OpcodeRowsSelectDecode
  refine ⟨?_, fun w i hd => ⟨opcodeRow_mem_opcodeRows i, (agrees_of_decode hd).selectedBy_opcodeRow⟩,
    fun w => decode_eq_nop_iff_unmapped⟩
  refine opcodeRows_nodup.imp_of_mem fun ha hb hne w ⟨hwa, hwb⟩ => hne ?_
  exact (row_eq_of_selectedBy ha hwa).trans (row_eq_of_selectedBy hb hwb).symm

/-- Settles O5: the word decodes to NOP, whose step fetches and counts the timers. -/
theorem unmappedWordIsNop : Obligations.UnmappedWordIsNop := by
  unfold Obligations.UnmappedWordIsNop
  intro s hrun hpc hunmapped
  have hhalted : s.halted = false := State.halted_eq_false_iff.mpr hrun
  have hfetch : s.badFetch = none := by rw [State.badFetch_eq, if_neg (by omega)]
  have hstep : step s = .next s.fetched.tick := by
    rw [step_of_nop s hhalted hfetch (decode_eq_nop_iff_unmapped.mpr hunmapped)]
    exact congrArg _ (State.finish_of_running s s.fetched hhalted)
  exact ⟨_, hstep, rfl, rfl, tickTimer_toNat s.dt, tickTimer_toNat s.st, rfl⟩

/-- Settles O3: eight words to decode, each by evaluation. -/
theorem specWordsDecodeAsWritten : Obligations.SpecWordsDecodeAsWritten := by
  unfold Obligations.SpecWordsDecodeAsWritten
  decide

end Sys2Proof.Proofs
end

section
/-! SUPPORT. The step taken apart: what it answers by whether the core is halted, the fetch in range and the handler completed;
the timers, the byte source, and runs that repeat one step. -/

namespace Sys2Proof.Machine

/-! ### What a step answers -/

section Answers

variable {s t u : State}

/-- A halted core steps to itself (R95). -/
theorem step_of_halted (h : s.fault.cause ≠ 0) : step s = .next s :=
  if_pos (by simpa [State.halted] using h)

/-- A running core whose fetch is in range runs the decoded word's handler, and finishes (R90). -/
theorem step_of_execute (hrun : s.fault.cause = 0) (hpc : s.pc.toNat ≤ 0xFFE)
    (hx : execute (decode s.fetchWord) s.fetched = .next u) : step s = .next (s.finish u) := by
  have hfetch : s.badFetch = none := by rw [State.badFetch_eq, if_neg (by omega)]
  rw [step_of_running s (State.halted_eq_false_iff.mpr hrun) hfetch, hx]
  rfl

theorem exec_answers (i : Instr) (s : State) : ∃ t, exec i s = .next t := by
  obtain ⟨r, _, hx⟩ | ⟨_, t, hx, _⟩ := exec_cases i s
  · exact ⟨_, hx⟩
  · exact ⟨t, hx⟩

theorem execute_answers (d : Decoded) (s : State) : ∃ t, execute d s = .next t := by
  cases d with
  | instr i => exact exec_answers i s
  | nop => exact ⟨s, rfl⟩

theorem step_answers (s : State) : ∃ t, step s = .next t := by
  by_cases hrun : s.fault.cause = 0
  · by_cases hpc : s.pc.toNat ≤ 0xFFE
    · obtain ⟨u, hx⟩ := execute_answers (decode s.fetchWord) s.fetched
      exact ⟨_, step_of_execute hrun hpc hx⟩
    · exact ⟨_, step_of_fetch_out_of_range hrun (by omega)⟩
  · exact ⟨s, step_of_halted hrun⟩

/-- What a running core whose fetch is in range steps to is what the handler left, finished. -/
theorem execute_of_step (hrun : s.fault.cause = 0) (hpc : s.pc.toNat ≤ 0xFFE) (h : step s = .next t) :
    ∃ u, execute (decode s.fetchWord) s.fetched = .next u ∧ t = s.finish u := by
  obtain ⟨u, hx⟩ := execute_answers (decode s.fetchWord) s.fetched
  exact ⟨u, hx, Host.Outcome.next.inj (h.symm.trans (step_of_execute hrun hpc hx))⟩

/-- The end of a step keeps all the handler did, or its fault status alone (R93, R98). -/
theorem State.finish_eq_ite (s t : State) :
    s.finish t = if t.fault.cause = 0 then t.tick else { s with fault := t.fault } := by
  by_cases h : t.fault.cause = 0 <;> simp [State.finish, State.halted, h]

/-- A step of a running core whose handler raised nothing counts the timers (R93). -/
theorem step_of_completes (hrun : s.fault.cause = 0) (hpc : s.pc.toNat ≤ 0xFFE)
    (hx : execute (decode s.fetchWord) s.fetched = .next u) (hu : u.fault = s.fault) : step s = .next u.tick := by
  rw [step_of_execute hrun hpc hx, State.finish_eq_ite, if_pos (hu ▸ hrun)]

/-- A running core that a step halts commits the fault and nothing else, with the word fetched, or 0 if none was (R98). -/
theorem step_halting (hrun : s.fault.cause = 0) (h : step s = .next t) (hhalt : t.fault.cause ≠ 0) :
    ∃ r, t = s.withFault (if s.pc.toNat > 0xFFE then 0 else s.fetchWord) r := by
  by_cases hpc : s.pc.toNat > 0xFFE
  · rw [if_pos hpc]
    exact ⟨_, Host.Outcome.next.inj (h.symm.trans (step_of_fetch_out_of_range hrun hpc))⟩
  rw [if_neg hpc]
  obtain ⟨u, hx, ht⟩ := execute_of_step hrun (by omega) h
  have raised : u.fault ≠ s.fault := by
    intro hu
    rw [ht, State.finish_eq_ite, if_pos (hu ▸ hrun)] at hhalt
    exact hhalt (hu ▸ hrun)
  cases hd : decode s.fetchWord with
  | nop =>
    rw [hd] at hx
    obtain rfl := Host.Outcome.next.inj hx
    exact absurd rfl raised
  | instr i =>
    rw [hd] at hx
    obtain ⟨r, _, rfl⟩ | ⟨_, hu⟩ := exec_outcome hx
    · exact ⟨r, ht.trans (State.finish_raise s r)⟩
    · exact absurd hu raised

end Answers

/-! ### The timers -/

section Timers

variable {s t : State} {i : Instr}

/-- Every handler but that of Fx15 keeps `DT` (R31). -/
theorem exec_dt (h : exec i s = .next t) (hDT : ∀ x, i ≠ .ldDTReg x) : t.dt = s.dt := by
  obtain ⟨r, _, rfl⟩ | ⟨hr, _⟩ := exec_outcome h
  · rfl
  · exact (exec_frame h hr).dt hDT

/-- Every handler but that of Fx18 keeps `ST` (R31). -/
theorem exec_st (h : exec i s = .next t) (hST : ∀ x, i ≠ .ldSTReg x) : t.st = s.st := by
  obtain ⟨r, _, rfl⟩ | ⟨hr, _⟩ := exec_outcome h
  · rfl
  · exact (exec_frame h hr).st hST

theorem tickTimer_iterate_toNat (k : Nat) (b : Byte) : (tickTimer^[k] b).toNat = b.toNat - k := by
  induction k generalizing b with
  | zero => rfl
  | succ k ih =>
    rw [Function.iterate_succ_apply, ih, tickTimer_toNat]
    omega

theorem State.tick_iterate (k : Nat) (s : State) :
    State.tick^[k] s = { s with dt := tickTimer^[k] s.dt, st := tickTimer^[k] s.st } := by
  induction k generalizing s with
  | zero => rfl
  | succ k ih => exact ih s.tick

end Timers

/-! ### The byte source -/

section ByteSource

variable {s t : State} {i : Instr} {d : Decoded} (g : Rng)

/-- Every handler but that of Cxkk carries the byte source along unread (R97). -/
theorem exec_withRng (h : exec i s = .next t) (hRnd : ∀ x kk, i ≠ .rndByte x kk) :
    exec i { s with rng := g } = .next { t with rng := g } := by
  by_cases hST : ∃ x, i = .ldSTReg x
  · obtain ⟨x, rfl⟩ := hST
    obtain rfl := Host.Outcome.next.inj h
    rfl
  · have hOther : ∀ x, i ≠ .ldSTReg x := fun x e => hST ⟨x, e⟩
    have hkeep : t.withUnread s.st g = { t with rng := g } := by rw [← exec_st h hOther]; rfl
    exact (exec_withUnread s.st g h hOther hRnd).trans (congrArg Host.Outcome.next hkeep)

theorem execute_withRng (h : execute d s = .next t) (hRnd : ∀ x kk, d ≠ .instr (.rndByte x kk)) :
    execute d { s with rng := g } = .next { t with rng := g } := by
  cases d with
  | nop =>
    obtain rfl := Host.Outcome.next.inj h
    rfl
  | instr i => exact exec_withRng g h fun x kk e => hRnd x kk (congrArg Decoded.instr e)

/-- The end of a step does not read the byte source. -/
theorem State.finish_withRng (s u : State) :
    State.finish { s with rng := g } { u with rng := g } = { s.finish u with rng := g } := by
  rw [State.finish_eq_ite, State.finish_eq_ite]
  by_cases hu : u.fault.cause = 0
  · rw [if_pos hu, if_pos hu]; rfl
  · rw [if_neg hu, if_neg hu]

/-- Cxkk completes in a running core, and draws one byte (R131). -/
theorem step_of_rndByte {x : Reg} {kk : Byte} (hrun : s.fault.cause = 0) (hpc : s.pc.toNat ≤ 0xFFE)
    (hd : decode s.fetchWord = .instr (.rndByte x kk)) :
    step s = .next (s.fetched.drawRandom.setV x (s.rng.nextByte &&& kk)).tick := by
  have hx : execute (decode s.fetchWord) s.fetched = .next (s.fetched.drawRandom.setV x (s.rng.nextByte &&& kk)) := by
    rw [hd]; rfl
  exact step_of_completes hrun hpc hx rfl

end ByteSource

/-! ### Runs that repeat one step -/

section Runs

variable {s : State} {nnn : Addr12}

/-- A halted core stays as it is, however many steps run (R95). -/
theorem run_of_halted (h : s.fault.cause ≠ 0) (k : Nat) : core.run k s = .next s := by
  induction k with
  | zero => rfl
  | succ k ih => exact (run_succ core k s s (step_of_halted h)).trans ih

/-- A running core at a JP to its own address that it has just fetched (R99). -/
structure State.AtSelfJump (s : State) (nnn : Addr12) : Prop where
  running : s.fault.cause = 0
  inRange : s.pc.toNat ≤ 0xFFE
  jump : decode s.fetchWord = .instr (.jpAddr nnn)
  target : nnn.toNat = s.pc.toNat
  loaded : s.opcode = s.fetchWord

/-- Counting the timers leaves a core at its self-jump. -/
theorem State.AtSelfJump.tick (h : s.AtSelfJump nnn) : s.tick.AtSelfJump nnn := { h with }

/-- The jump writes back the `PC` and the OPCODE that were there. -/
theorem State.AtSelfJump.jumped (h : s.AtSelfJump nnn) : s.fetched.setPC (nnn.setWidth 16) = s := by
  have hpc : nnn.setWidth 16 = s.pc := BitVec.eq_of_toNat_eq (by have := h.target; have := nnn.isLt; simp; omega)
  rw [hpc, State.setPC, State.fetched, ← h.loaded]

/-- At a self-jump a step counts the timers and does nothing else (R99). -/
theorem State.AtSelfJump.step_eq (h : s.AtSelfJump nnn) : step s = .next s.tick := by
  have hx : execute (decode s.fetchWord) s.fetched = .next s := by
    rw [h.jump]
    exact congrArg Host.Outcome.next h.jumped
  exact step_of_completes h.running h.inRange hx rfl

theorem State.AtSelfJump.run_eq (h : s.AtSelfJump nnn) (k : Nat) : core.run k s = .next (State.tick^[k] s) := by
  induction k generalizing s with
  | zero => rfl
  | succ k ih => exact (run_succ core k s s.tick h.step_eq).trans (ih h.tick)

end Runs

/-! ### The fault status under the host's calls -/

section HostCalls

variable {s t : State}

/-- A load writes memory only (R214). -/
theorem portLoad_fault {image : Option (List Byte)} (h : portLoad image s = .ok t) : t.fault = s.fault := by
  cases image with
  | none => cases h
  | some bytes =>
    rw [portLoad] at h
    split at h
    · obtain rfl := Except.ok.inj h
      rw [State.writeBytes_eq]
    · cases h

/-- A key write changes the keypad only (R215). -/
theorem portSetKey_fault {k : Nat} {pressed : Bool} (h : portSetKey k pressed s = .ok t) : t.fault = s.fault := by
  rw [portSetKey] at h
  split at h
  · obtain rfl := Except.ok.inj h
    rfl
  · cases h

theorem Session.call_load_fault (h : Session) (image : Option (List Byte)) :
    (h.call (.load image)).1.core.fault = h.core.fault := by
  rw [Session.call]
  split
  · split
    case h_1 t hload => exact portLoad_fault hload
    case h_2 => rfl
  · rfl

theorem Session.call_setKey_fault (h : Session) (k : Nat) (pressed : Bool) :
    (h.call (.setKey k pressed)).1.core.fault = h.core.fault := by
  rw [Session.call]
  split
  · split
    case h_1 t hkey => exact portSetKey_fault hkey
    case h_2 => rfl
  · rfl

/-- A step of a halted core, allowed or refused by the session, leaves the session as it was (R95). -/
theorem Session.call_step_of_halted (h : Session) (hhalt : h.core.fault.cause ≠ 0) : (h.call .step).1 = h := by
  rw [Session.call, step_of_halted hhalt]
  split <;> rfl

end HostCalls

end Sys2Proof.Machine
end

section
/-! SUPPORT. The statements about the cycle: what a step runs, when it answers, what a fault leaves, the timers, the draw, and
the self-jump. -/

namespace Sys2Proof.Proofs

open Sys2Proof.Machine

/-- Settles O7: a halted core steps to itself; Load and SetKey write no fault status, and Init clears it. -/
theorem haltedCoreStaysHalted : Obligations.HaltedCoreStaysHalted := by
  unfold Obligations.HaltedCoreStaysHalted
  refine ⟨fun s k hhalt => run_of_halted hhalt k, fun h c hhalt hInit => ?_, fun _ _ _ => rfl⟩
  cases c with
  | init seed forced => exact absurd rfl (hInit seed forced)
  | load image => exact h.call_load_fault image
  | setKey k pressed => exact h.call_setKey_fault k pressed
  | step => rw [h.call_step_of_halted hhalt]

/-- Settles O9: the fault is all that such a step commits. -/
theorem faultingStepCommitsNothing : Obligations.FaultingStepCommitsNothing := by
  unfold Obligations.FaultingStepCommitsNothing
  intro s t hrun h hhalt
  obtain ⟨r, rfl⟩ := step_halting hrun h hhalt
  exact ⟨rfl, rfl, rfl⟩

/-- Settles O11: every handler answers, and so does a step that runs none. -/
theorem everyStepAnswersNextState : Obligations.EveryStepAnswersNextState :=
  ⟨exec_answers, step_answers⟩

/-- Settles O12: the step's last act is to count, after a handler that keeps a timer unless it is the one that sets it. -/
theorem timersCountEveryStep : Obligations.TimersCountEveryStep := by
  unfold Obligations.TimersCountEveryStep
  intro s t hrun h hrun'
  obtain ⟨hhalted, _⟩ | ⟨w, r, rfl⟩ | ⟨_, _, ⟨hd, rfl⟩ | ⟨i, u, hd, _, hx, _, rfl⟩⟩ := step_outcome h
  · exact absurd hrun hhalted
  · exact absurd hrun' (s.withFault_cause_ne_zero w r)
  · rw [hd]
    exact ⟨tickTimer_toNat s.dt, tickTimer_toNat s.st⟩
  rw [hd, State.tick_dt, State.tick_st, tickTimer_toNat, tickTimer_toNat]
  constructor
  · split
    case h_1 x hi => cases hi; cases hx; rfl
    case h_2 hDT => rw [exec_dt hx fun x e => hDT x (congrArg Decoded.instr e), State.fetched_dt]
  · split
    case h_1 x hi => cases hi; cases hx; rfl
    case h_2 hST => rw [exec_st hx fun x e => hST x (congrArg Decoded.instr e), State.fetched_st]

/-- Settles O17: the fetch, the handlers of all but Cxkk and the end of the step carry the byte source along; Cxkk reads its
next byte. -/
theorem stepDependsOnDrawOnlyInRnd : Obligations.StepDependsOnDrawOnlyInRnd := by
  unfold Obligations.StepDependsOnDrawOnlyInRnd
  intro s t g hrun hpc h
  refine ⟨fun hRnd => ?_, fun x kk hd hbyte => ?_⟩
  · obtain ⟨u, hx, rfl⟩ := execute_of_step hrun hpc h
    rw [← State.finish_withRng]
    exact step_of_execute (s := { s with rng := g }) hrun hpc (execute_withRng g hx hRnd)
  · obtain rfl := Host.Outcome.next.inj (h.symm.trans (step_of_rndByte hrun hpc hd))
    rw [← hbyte]
    exact step_of_rndByte (s := { s with rng := g }) hrun hpc hd

/-- Settles O50: each step counts the timers and leaves the core at the same jump. -/
theorem selfJumpOnlyCountsTimers : Obligations.SelfJumpOnlyCountsTimers := by
  unfold Obligations.SelfJumpOnlyCountsTimers
  intro s nnn k hrun hpc hjump htarget hloaded
  have hself : s.AtSelfJump nnn := ⟨hrun, hpc, hjump, htarget, hloaded⟩
  refine ⟨_, (hself.run_eq k).trans (congrArg Host.Outcome.next (s.tick_iterate k)), ?_, ?_, rfl⟩
  · exact tickTimer_iterate_toNat k s.dt
  · exact tickTimer_iterate_toNat k s.st

/-- Settles O4: the step is the handler's state, finished. -/
theorem stepRunsDecodedInstruction : Obligations.StepRunsDecodedInstruction := by
  unfold Obligations.StepRunsDecodedInstruction
  intro s t i hrun hpc hd hx
  have hx : execute (decode s.fetchWord) s.fetched = .next t := by
    rw [hd]
    exact hx
  exact (step_of_execute hrun hpc hx).trans (congrArg Host.Outcome.next (s.finish_eq_ite t))

end Sys2Proof.Proofs
end

section
/-! SUPPORT. Control transfer: the step of an instruction that raises, the exact target of JP V0, and what a
skip leaves. -/

namespace Sys2Proof.Machine

/-! ### The step of an instruction that raises -/

section Raising

variable {s : State} {i : Instr} {r : Raise}

/-- A running core whose decoded instruction raises `r` commits the fault and nothing else (R98, R200). -/
theorem step_of_raises (hrun : s.fault.cause = 0) (hpc : s.pc.toNat ≤ 0xFFE) (hd : decode s.fetchWord = .instr i)
    (hr : s.raises i = some r) : step s = .next (s.withFault s.fetchWord r) := by
  have hx : execute (decode s.fetchWord) s.fetched = .next (s.fetched.raise r) := by
    rw [hd]
    exact exec_of_raises (by rwa [State.raises_fetched])
  exact (step_of_execute hrun hpc hx).trans (congrArg Host.Outcome.next (s.finish_raise r))

/-- RET on an empty stack raises STACK_UNDERFLOW (R102, D8). -/
theorem State.raises_ret_of_empty (h : s.sp.val = 0) : s.raises .ret = some ⟨.stackUnderflow, 0⟩ :=
  if_pos h

/-- CALL on a full stack raises STACK_OVERFLOW (R100, D7). -/
theorem State.raises_callAddr_of_full (nnn : Addr12) (h : s.sp.val = 16) :
    s.raises (.callAddr nnn) = some ⟨.stackOverflow, 0⟩ :=
  if_pos h

end Raising

/-! ### The target of JP V0 -/

section Targets

variable (nnn : Addr12)

/-- R110: the sum of a byte and a 12-bit address is at most 0x10FE. -/
theorem byte_add_addr12_le (b : Byte) : b.toNat + nnn.toNat ≤ 0x10FE := by
  have := b.isLt
  have := nnn.isLt
  omega

/-- R110: so it never reaches 2^16, and the sum is exact. -/
theorem toNat_byte_add_addr12 (b : Byte) : (BitVec.ofNat 16 (b.toNat + nnn.toNat)).toNat = b.toNat + nnn.toNat :=
  Nat.mod_eq_of_lt ((byte_add_addr12_le nnn b).trans_lt (by decide))

end Targets

/-! ### The skips -/

section Skips

variable (s : State)

/-- `SkipIf` writes `PC` alone (R101). -/
theorem State.skipIf_restore_pc (c : Bool) : { s.skipIf c with pc := s.pc } = s := by
  rw [State.skipIf_eq]
  rfl

/-- The four skips are `SkipIf` of a condition that says what the rule compares (R101). -/
theorem exec_skip_of_decides {i : Instr} {c : Bool} {p : Prop} [Decidable p] (hx : exec i s = .next (s.skipIf c))
    (hc : c = true ↔ p) :
    ∃ t, exec i s = .next t ∧ { t with pc := s.pc } = s ∧ t.pc = if p then s.pc + 2 else s.pc :=
  ⟨_, hx, s.skipIf_restore_pc c, by simp only [State.skipIf_pc, hc]⟩

end Skips

end Sys2Proof.Machine
end

section
/-! SUPPORT. The statements about control transfer: RET, JP, CALL, the register skips and JP V0. -/

namespace Sys2Proof.Proofs

open Sys2Proof.Machine

/-- Settles O19: RET reads the slot below the old `SP` and writes none; with no slot below it, it raises. -/
theorem returnPopsIntoProgramCounter : Obligations.ReturnPopsIntoProgramCounter := by
  unfold Obligations.ReturnPopsIntoProgramCounter
  refine ⟨fun s hpos => ⟨_, exec_ret_of_pos s hpos, rfl, ?_, rfl⟩, fun s hrun hpc hd hempty => ?_⟩
  · exact (Vector.getElem?_eq_getElem _).symm
  · exact step_of_raises hrun hpc hd (State.raises_ret_of_empty hempty)

/-- Settles O20: the target is `nnn` with zeros above; the second byte of a fetch at 0xFFF lies at 0x1000. -/
theorem jumpSetsProgramCounter : Obligations.JumpSetsProgramCounter := by
  unfold Obligations.JumpSetsProgramCounter
  refine ⟨fun s nnn => ⟨_, rfl, BitVec.toNat_setWidth_of_le (by decide), rfl⟩, fun s hrun hpc => ?_⟩
  have hword : s.pc = 0xFFF := BitVec.eq_of_toNat_eq hpc
  rw [step_of_fetch_out_of_range hrun (by omega), State.withFault, hword]
  rfl

/-- Settles O21: CALL writes the slot at the old `SP` and no other; with no slot left, it raises. -/
theorem callPushesReturnAddress : Obligations.CallPushesReturnAddress := by
  unfold Obligations.CallPushesReturnAddress
  refine ⟨fun s nnn hlt => ⟨_, exec_callAddr_of_lt s nnn hlt, ?_, rfl, ?_, fun j hj => ?_, rfl⟩,
    fun s nnn hrun hpc hd hfull => ?_⟩
  · exact BitVec.toNat_setWidth_of_le (by decide)
  · exact Vector.getElem?_set_self hlt
  · exact Vector.getElem?_set_ne hlt hj.symm
  · exact step_of_raises hrun hpc hd (State.raises_callAddr_of_full nnn hfull)

/-- Settles O23: each is `SkipIf` of its comparison. -/
theorem skipsTestRegisters : Obligations.SkipsTestRegisters := by
  unfold Obligations.SkipsTestRegisters
  intro s x y kk
  exact ⟨exec_skip_of_decides s rfl beq_iff_eq, exec_skip_of_decides s rfl bne_iff_ne,
    exec_skip_of_decides s rfl beq_iff_eq, exec_skip_of_decides s rfl bne_iff_ne⟩

/-- Settles O24: the sum of a byte and a 12-bit address stays below 2^16. -/
theorem jumpWithOffsetAddsExactly : Obligations.JumpWithOffsetAddsExactly := by
  unfold Obligations.JumpWithOffsetAddsExactly
  intro s nnn
  have hsum := toNat_byte_add_addr12 nnn (s.getV 0)
  exact ⟨_, rfl, hsum, hsum.trans_le (byte_add_addr12_le nnn (s.getV 0)), rfl⟩

end Sys2Proof.Proofs
end

section
/-! SUPPORT. Arithmetic: the flag and result bytes as numbers, and what an instruction that writes one register, or VF and then
one register, leaves. -/

namespace Sys2Proof.Machine

/-! ### Flag and result bytes -/

section Bytes

variable (a b : Byte)

theorem toNat_sumByte : (sumByte a b).toNat = (a.toNat + b.toNat) % 256 := BitVec.toNat_ofNat _ _

/-- R12: the exact difference wraps once, since it lies above -256. -/
theorem toNat_diffByte : (diffByte a b).toNat = (a.toNat + 256 - b.toNat) % 256 := by
  have := b.isLt
  rw [diffByte, BitVec.toNat_ofInt]
  omega

theorem toNat_shiftRight1 : (shiftRight1 a).toNat = a.toNat / 2 :=
  Nat.mod_eq_of_lt ((Nat.div_le_self _ _).trans_lt a.isLt)

theorem toNat_shiftLeft1 : (shiftLeft1 a).toNat = a.toNat * 2 % 256 := BitVec.toNat_ofNat _ _

theorem carryFlag_eq : carryFlag a b = if a.toNat + b.toNat > 255 then 1 else 0 := by
  simp only [carryFlag, flagByte, decide_eq_true_eq]

theorem greaterFlag_eq : greaterFlag a b = if a.toNat > b.toNat then 1 else 0 := by
  simp only [greaterFlag, flagByte, decide_eq_true_eq]

/-- A flag is its condition as a number. -/
theorem flagByte_eq_ofNat (c : Bool) : flagByte c = BitVec.ofNat 8 c.toNat := by
  cases c <;> rfl

theorem lowBitFlag_eq : lowBitFlag a = BitVec.ofNat 8 (a.toNat % 2) := by
  rw [lowBitFlag, flagByte_eq_ofNat, BitVec.getLsbD, Nat.toNat_testBit, Nat.pow_zero, Nat.div_one]

theorem highBitFlag_eq : highBitFlag a = BitVec.ofNat 8 (a.toNat / 128) := by
  have hbit : a.toNat / 128 < 2 := by
    have := a.isLt
    omega
  rw [highBitFlag, flagByte_eq_ofNat, BitVec.getLsbD, Nat.toNat_testBit]
  exact congrArg _ (Nat.mod_eq_of_lt hbit)

end Bytes

/-! ### One register written -/

section OneRegister

variable {s : State} {i : Instr} {x : Reg} {b : Byte}

/-- Writing back what a register holds changes nothing. -/
theorem State.setV_getV_self (s : State) (x : Reg) : s.setV x (s.getV x) = s := by
  rw [State.setV, State.getV, Vector.set_getElem_self]

/-- An instruction that writes one register leaves all else, the other registers included. -/
theorem exec_of_setV (hx : exec i s = .next (s.setV x b)) :
    ∃ t, exec i s = .next t ∧ { t with v := s.v } = s ∧ ∀ q, t.getV q = if q = x then b else s.getV q :=
  ⟨_, hx, rfl, fun q => s.getV_setV x q b⟩

end OneRegister

/-! ### The flag, then the result -/

section FlagThenResult

variable (s : State) (flag : Byte)

/-- The state a result's operands are read from: after the flag write under `sequential`, before it under `snapshot` (R134). -/
def State.operandState : State :=
  match s.params.aliasOrder with
  | .sequential => s.setV VF flag
  | .snapshot => s

/-- R134: only VF as an operand tells the two settings apart. -/
theorem State.getV_operandState (r : Reg) :
    (s.operandState flag).getV r = if s.params.aliasOrder = .sequential ∧ r = VF then flag else s.getV r := by
  unfold State.operandState
  cases s.params.aliasOrder <;> simp [State.getV_setV]

theorem State.getV_flagThenResult_result (x : Reg) (result : State → Byte) :
    (s.flagThenResult x flag result).getV x = result (s.operandState flag) := by
  rw [State.getV_flagThenResult, if_pos rfl, State.operandState]
  cases s.params.aliasOrder <;> rfl

/-- A result that reads no register is written under both settings alike. -/
theorem State.flagThenResult_const (x : Reg) (b : Byte) :
    s.flagThenResult x flag (fun _ => b) = (s.setV VF flag).setV x b := by
  unfold State.flagThenResult
  cases s.params.aliasOrder <;> rfl

/-- ADD writes its carry and then its sum, which was computed before any write (R126). -/
theorem exec_addReg (x y : Reg) :
    exec (.addReg x y) s = .next
      (s.flagThenResult x (carryFlag (s.getV x) (s.getV y)) fun _ => sumByte (s.getV x) (s.getV y)) := by
  rw [State.flagThenResult_const]
  rfl

theorem State.shiftSource_eq (x y : Reg) :
    s.shiftSource x y = if s.params.shiftSource = .vx then x else y := by
  unfold State.shiftSource
  cases s.params.shiftSource <;> rfl

variable {s flag}

/-- R22: VF ends with the flag unless it is the destination, the destination with the result, and all else is as it was. -/
theorem exec_of_flagThenResult {i : Instr} {x : Reg} {result : State → Byte} {n : Nat}
    (hx : exec i s = .next (s.flagThenResult x flag result)) (hn : (result (s.operandState flag)).toNat = n) :
    ∃ t, exec i s = .next t ∧ { t with v := s.v } = s ∧ (t.getV x).toNat = n ∧ (x ≠ VF → t.getV VF = flag) ∧
      ∀ q, q ≠ x → q ≠ VF → t.getV q = s.getV q := by
  refine ⟨_, hx, ?_, ?_, fun hxVF => ?_, fun q hqx hqVF => ?_⟩
  · rw [State.flagThenResult_eq]
  · rw [State.getV_flagThenResult_result, hn]
  · rw [State.getV_flagThenResult, if_neg hxVF.symm, if_pos rfl]
  · rw [State.getV_flagThenResult, if_neg hqx, if_neg hqVF]

/-- A subtraction of `Vq` from `Vp` into `Vx`, with `a` and `b` the operands as ALIAS_ORDER has them read (R133, R134). -/
theorem exec_of_flagThenDifference {i : Instr} {x p q : Reg} {a b : Byte}
    (hx : exec i s = .next
      (s.flagThenResult x (greaterFlag (s.getV p) (s.getV q)) fun t => diffByte (t.getV p) (t.getV q)))
    (hflag : flag = if (s.getV p).toNat > (s.getV q).toNat then 1 else 0)
    (ha : a = if s.params.aliasOrder = .sequential ∧ p = VF then flag else s.getV p)
    (hb : b = if s.params.aliasOrder = .sequential ∧ q = VF then flag else s.getV q) :
    ∃ t, exec i s = .next t ∧ { t with v := s.v } = s ∧ (t.getV x).toNat = (a.toNat + 256 - b.toNat) % 256 ∧
      (x ≠ VF → t.getV VF = flag) ∧ ∀ r, r ≠ x → r ≠ VF → t.getV r = s.getV r := by
  rw [greaterFlag_eq, ← hflag] at hx
  apply exec_of_flagThenResult hx
  rw [toNat_diffByte, State.getV_operandState, State.getV_operandState, ← ha, ← hb]

end FlagThenResult

end Sys2Proof.Machine
end

section
/-! SUPPORT. The statements about arithmetic: ADD, SUB, SUBN, the shifts, the loads and logic, ADD immediate and RND. -/

namespace Sys2Proof.Proofs

open Sys2Proof.Machine

/-- Settles O27: ADD is a flag and a result that reads no register. -/
theorem addRegistersSetsCarry : Obligations.AddRegistersSetsCarry := by
  unfold Obligations.AddRegistersSetsCarry
  intro s x y
  rw [← carryFlag_eq]
  exact exec_of_flagThenResult (exec_addReg s x y) (toNat_sumByte _ _)

/-- Settles O28: the subtraction of Vy from Vx. -/
theorem subtractSetsStrictFlag : Obligations.SubtractSetsStrictFlag := by
  unfold Obligations.SubtractSetsStrictFlag
  intro s x y f a b hf ha hb
  exact exec_of_flagThenDifference rfl hf ha hb

/-- Settles O29: the subtraction of Vx from Vy. -/
theorem reverseSubtractSetsStrictFlag : Obligations.ReverseSubtractSetsStrictFlag := by
  unfold Obligations.ReverseSubtractSetsStrictFlag
  intro s x y f a b hf ha hb
  exact exec_of_flagThenDifference rfl hf hb ha

/-- Settles O30: the one operand is the register SHIFT_SOURCE selects, read in the state ALIAS_ORDER selects. -/
theorem shiftsSetShiftedOutBit : Obligations.ShiftsSetShiftedOutBit := by
  unfold Obligations.ShiftsSetShiftedOutBit
  intro s x y src lo hi hsrc hlo hhi
  rw [← State.shiftSource_eq] at hsrc
  rw [← lowBitFlag_eq] at hlo
  rw [← highBitFlag_eq] at hhi
  subst hsrc hlo hhi
  constructor
  · apply exec_of_flagThenResult rfl
    rw [toNat_shiftRight1, State.getV_operandState]
  · apply exec_of_flagThenResult rfl
    rw [toNat_shiftLeft1, State.getV_operandState]

/-- Settles O25: each is one register write; with `x = y` the value written is the one held, or 0. -/
theorem loadsAndLogicWriteDestination : Obligations.LoadsAndLogicWriteDestination := by
  unfold Obligations.LoadsAndLogicWriteDestination
  refine ⟨fun s x y kk => ⟨exec_of_setV rfl, exec_of_setV rfl, exec_of_setV rfl, exec_of_setV rfl, exec_of_setV rfl⟩,
    fun s x => ?_⟩
  have hsame {b : Byte} (hb : b = s.getV x) : Host.Outcome.next (s.setV x b) = (.next s : Result) := by
    rw [hb, State.setV_getV_self]
  exact ⟨hsame rfl, hsame BitVec.or_self, hsame BitVec.and_self, _, rfl,
    (s.getV_setV_same x _).trans BitVec.xor_self⟩

/-- Settles O26: it is one register write, of the wrapped sum. -/
theorem addImmediateWrapsWithoutFlag : Obligations.AddImmediateWrapsWithoutFlag := by
  unfold Obligations.AddImmediateWrapsWithoutFlag
  intro s x kk
  refine ⟨_, rfl, rfl, ?_, fun q hq => s.getV_setV_other x q _ hq⟩
  rw [State.getV_setV_same, toNat_sumByte]

/-- Settles O31: the byte source advances once, before the one register write; a list of fixed draws makes any byte the next. -/
theorem randomConsumesOneDraw : Obligations.RandomConsumesOneDraw := by
  unfold Obligations.RandomConsumesOneDraw
  refine ⟨fun s x kk => ⟨_, rfl, rfl, ?_, fun q hq => ?_, rfl, rfl, List.drop_one.symm⟩, fun s x kk b => ?_⟩
  · exact s.drawRandom.getV_setV_same x _
  · exact s.drawRandom.getV_setV_other x q _ hq
  · exact ⟨{ seed := 0, drawn := 0, forced := [b] }, _, rfl, State.getV_setV_same _ x _⟩

end Sys2Proof.Proofs
end

section
/-! SUPPORT. Display: the sprite a draw finds, the cells and registers it leaves, and when it fits. -/

namespace Sys2Proof.Machine

/-! ### When a sprite lies in memory -/

/-- A sprite with no rows, or whose last row is in memory, does not overrun memory (R155). -/
theorem not_overruns_of_fits {base : Nat} {n : Nibble} (h : n = 0 ∨ base + n.toNat ≤ 0x1000) :
    ¬ (n.toNat ≠ 0 ∧ base + n.toNat > 0x1000) := by
  rintro ⟨hn, hbig⟩
  obtain rfl | hfit := h
  · exact hn rfl
  · omega

/-- A sprite that overruns memory raises MEM_RANGE with its first bad address (R155). -/
theorem exec_drw_of_overruns (s : State) (x y : Reg) {n : Nibble} (hn : n ≠ 0) (h : s.i.toNat + n.toNat > 0x1000) :
    exec (.drw x y n) s = .next (s.raise ⟨.memRange, BitVec.ofNat 17 (max s.i.toNat 0x1000)⟩) := by
  have hrows : n.toNat ≠ 0 := fun e => hn (BitVec.eq_of_toNat_eq e)
  exact exec_of_raises (if_pos ⟨hrows, h⟩)

/-! ### What a draw leaves -/

section Draw

variable (s : State) (x y : Reg) (n : Nibble)

/-- The framebuffer after a draw is the old one XOR the wrapped sprite (R154). -/
theorem State.get_drawSprite (c : Fin 64) (r : Fin 32) :
    (s.drawSprite x y n.toNat).fb.get c r = (s.fb.get c r ^^ s.spriteLit x y n c r) := by
  have hcell := (plot_foldl _ (s.nodup_spriteCells (s.getV x) (s.getV y) n) s.fb false).1 c r
  have hlit : decide ((c, r) ∈ s.spriteCells (s.getV x) (s.getV y) n.toNat) = s.spriteLit x y n c r :=
    Bool.eq_iff_iff.mpr (decide_eq_true_iff.trans (s.mem_spriteCells x y n c r))
  rwa [hlit] at hcell

/-- A cell of the sprite's list was on exactly when a set bit of the sprite is over a cell that was on (R153). -/
theorem State.any_spriteCells_on_iff :
    ((s.spriteCells (s.getV x) (s.getV y) n.toNat).any fun p => s.fb.get p.1 p.2) = true ↔
      ∃ c r, s.fb.get c r = true ∧ s.spriteLit x y n c r = true := by
  simp only [List.any_eq_true, Prod.exists, s.mem_spriteCells, and_comm]

/-- VF after a draw is the collision flag (R153). -/
theorem State.getV_drawSprite_VF [Decidable (∃ c r, s.fb.get c r = true ∧ s.spriteLit x y n c r = true)] :
    (s.drawSprite x y n.toNat).getV VF =
      if ∃ c r, s.fb.get c r = true ∧ s.spriteLit x y n c r = true then 1 else 0 := by
  have hflag := (plot_foldl _ (s.nodup_spriteCells (s.getV x) (s.getV y) n) s.fb false).2
  rw [Bool.false_or] at hflag
  refine (s.getV_setV_same VF _).trans ?_
  rw [hflag]
  exact if_congr (s.any_spriteCells_on_iff x y n) rfl rfl

/-- A draw writes no register but VF. -/
theorem State.getV_drawSprite_other {q : Reg} (hq : q ≠ VF) (rows : Nat) : (s.drawSprite x y rows).getV q = s.getV q :=
  s.getV_setV_other VF q _ hq

/-- A draw reads memory and leaves it. -/
theorem State.drawSprite_readByte (rows a : Nat) : (s.drawSprite x y rows).readByte a = s.readByte a := rfl

/-- A draw reads `I` and leaves it. -/
theorem State.drawSprite_i (rows : Nat) : (s.drawSprite x y rows).i = s.i := rfl

/-- Drawn from registers other than VF, the sprite lies over the same cells again afterwards. -/
theorem State.spriteLit_drawSprite (hx : x ≠ VF) (hy : y ≠ VF) (rows : Nat) (c : Fin 64) (r : Fin 32) :
    (s.drawSprite x y rows).spriteLit x y n c r = s.spriteLit x y n c r := by
  simp only [State.spriteLit, s.getV_drawSprite_other x y hx, s.getV_drawSprite_other x y hy, State.drawSprite_readByte,
    State.drawSprite_i]

/-- The second draw of a sprite, from registers other than VF, undoes the first (R154). -/
theorem State.drawSprite_drawSprite_fb (hx : x ≠ VF) (hy : y ≠ VF) :
    ((s.drawSprite x y n.toNat).drawSprite x y n.toNat).fb = s.fb := by
  apply Framebuffer.ext_get
  intro c r
  rw [State.get_drawSprite, State.get_drawSprite, s.spriteLit_drawSprite x y n hx hy, Bool.xor_assoc, Bool.xor_self,
    Bool.xor_false]

end Draw

end Sys2Proof.Machine
end

section
/-! SUPPORT. The statements about the display: DRW, the sprite drawn twice, and CLS. -/

namespace Sys2Proof.Proofs

open Sys2Proof.Machine

/-- Settles O33: a sprite plots no cell twice, so each cell under a set bit is toggled once; the range check precedes it. -/
theorem drawXorsWrappedSprite : Obligations.DrawXorsWrappedSprite := by
  unfold Obligations.DrawXorsWrappedSprite
  refine ⟨fun s x y n hfit => ?_, fun s x y n => exec_drw_of_overruns s x y⟩
  exact ⟨_, exec_drw_of_fits s x y n (not_overruns_of_fits hfit), s.get_drawSprite x y n, s.getV_drawSprite_VF x y n,
    fun q hq => s.getV_drawSprite_other x y hq n.toNat, rfl⟩

/-- Settles O34: the second draw finds the same sprite at the same place, and XOR with it undoes the first. -/
theorem drawTwiceRestoresFramebuffer : Obligations.DrawTwiceRestoresFramebuffer := by
  unfold Obligations.DrawTwiceRestoresFramebuffer
  intro s t x y n hx hy hfit h
  have hfit := not_overruns_of_fits hfit
  obtain rfl := exec_next_inj h (exec_drw_of_fits s x y n hfit)
  exact ⟨_, exec_drw_of_fits (s.drawSprite x y n.toNat) x y n hfit, s.drawSprite_drawSprite_fb x y n hx hy⟩

/-- Settles O32: CLS writes the blank framebuffer and nothing else. -/
theorem clearScreenTurnsEveryCellOff : Obligations.ClearScreenTurnsEveryCellOff := by
  unfold Obligations.ClearScreenTurnsEveryCellOff
  exact fun s => ⟨_, rfl, Framebuffer.get_blank, rfl⟩

end Sys2Proof.Proofs
end

section
/-! SUPPORT. Keys and timers: the step of an instruction that completes, the key a register names, the key wait, and a timer
read before it counts. -/

namespace Sys2Proof.Machine

variable {s u : State} {i : Instr} {x : Reg} {k : Fin 16}

/-- A running core whose instruction completes leaves what its handler left, with the timers counted (R93). -/
theorem step_of_exec_completes (hrun : s.fault.cause = 0) (hpc : s.pc.toNat ≤ 0xFFE)
    (hd : decode s.fetchWord = .instr i) (hx : exec i s.fetched = .next u) (hu : u.fault = s.fault) :
    step s = .next u.tick := by
  have hx : execute (decode s.fetchWord) s.fetched = .next u := by rwa [hd]
  exact step_of_completes hrun hpc hx hu

/-! ### The key a register names -/

theorem exec_skp_of_toNat_eq (hk : (s.getV x).toNat = k.val) :
    exec (.skp x) s = .next (s.skipIf (s.keyPressed k)) := by
  obtain ⟨_, hlt⟩ := k
  obtain rfl := hk
  exact exec_skp_of_lt s x hlt

theorem exec_sknp_of_toNat_eq (hk : (s.getV x).toNat = k.val) :
    exec (.sknp x) s = .next (s.skipIf (!s.keyPressed k)) := by
  obtain ⟨_, hlt⟩ := k
  obtain rfl := hk
  exact exec_sknp_of_lt s x hlt

/-- SKP of a value that names no key raises KEY_RANGE (R159, D9). -/
theorem State.raises_skp_of_gt (h : (s.getV x).toNat > 0xF) :
    s.raises (.skp x) = some ⟨.keyRange, BitVec.ofNat 17 (s.getV x).toNat⟩ :=
  if_pos h

/-- SKNP checks the same index (R159, D9). -/
theorem State.raises_sknp_of_gt (h : (s.getV x).toNat > 0xF) :
    s.raises (.sknp x) = some ⟨.keyRange, BitVec.ofNat 17 (s.getV x).toNat⟩ :=
  State.raises_skp_of_gt h

/-! ### The key wait -/

/-- A key's number fits in a register. -/
theorem toNat_keyByte (k : Fin 16) : (BitVec.ofNat 8 k.val).toNat = k.val :=
  Nat.mod_eq_of_lt (k.isLt.trans (by decide))

/-- Going back to the instruction undoes the fetch, but for OPCODE (R163). -/
theorem State.fetched_setPC_back (s : State) :
    s.fetched.setPC (s.fetched.pc - 2) = { s with opcode := s.fetchWord } := by
  rw [State.fetched_pc, BitVec.add_sub_cancel]
  rfl

/-- The step of a key wait with no key pressed loads OPCODE and counts the timers (R163). -/
theorem step_of_waiting (hrun : s.fault.cause = 0) (hpc : s.pc.toNat ≤ 0xFFE)
    (hd : decode s.fetchWord = .instr (.ldRegK x)) (hnone : ∀ k, s.keyPressed k = false) :
    step s = .next ({ s with opcode := s.fetchWord } : State).tick := by
  have hx := exec_ldRegK_of_none s.fetched x (s.fetched.lowestKey_none.mpr hnone)
  rw [State.fetched_setPC_back] at hx
  exact step_of_exec_completes hrun hpc hd hx rfl

/-! ### A timer above 0, counted -/

/-- A timer that is not 0 was one more before it counted (R93). -/
theorem toNat_eq_tickTimer_add_one {b : Byte} (hb : b.toNat ≠ 0) : b.toNat = (tickTimer b).toNat + 1 := by
  rw [tickTimer_toNat]
  omega

end Sys2Proof.Machine
end

section
/-! SUPPORT. The statements about keys and timers: SKP and SKNP, the key wait, and the reads and writes of the timers. -/

namespace Sys2Proof.Proofs

open Sys2Proof.Machine

/-- Settles O35: each is `SkipIf` of the named key's cell; a value that names no key raises KEY_RANGE in either. -/
theorem keySkipsTestTheNamedKey : Obligations.KeySkipsTestTheNamedKey := by
  unfold Obligations.KeySkipsTestTheNamedKey
  refine ⟨fun s x k hk => ⟨?_, ?_⟩, fun s x hrun hpc hgt hd => ?_⟩
  · exact exec_skip_of_decides s (exec_skp_of_toNat_eq hk) Iff.rfl
  · exact exec_skip_of_decides s (exec_sknp_of_toNat_eq hk) (iff_of_eq (Bool.not_eq_true' _))
  · obtain hd | hd := hd
    · exact step_of_raises hrun hpc hd (State.raises_skp_of_gt hgt)
    · exact step_of_raises hrun hpc hd (State.raises_sknp_of_gt hgt)

/-- Settles O37: the lowest pressed key is written to one register; with none pressed the wait undoes its fetch. -/
theorem keyWaitTakesLowestKeyOrRepeats : Obligations.KeyWaitTakesLowestKeyOrRepeats := by
  unfold Obligations.KeyWaitTakesLowestKeyOrRepeats
  refine ⟨fun s x k hk hlower => ?_, fun s x hnone => exec_ldRegK_of_none s x (s.lowestKey_none.mpr hnone),
    fun s x hrun hpc hd hnone => ?_⟩
  · refine ⟨_, exec_ldRegK_of_some s x k ((s.lowestKey_some k).mpr ⟨hk, hlower⟩), rfl, ?_,
      fun q hq => s.getV_setV_other x q _ hq⟩
    rw [State.getV_setV_same, toNat_keyByte]
  · exact ⟨_, step_of_waiting hrun hpc hd hnone, tickTimer_toNat s.dt, tickTimer_toNat s.st, rfl, rfl⟩

/-- Settles O36: it is one register write, of the `DT` that the step's end then counts. -/
theorem readDelayTimerBeforeDecrement : Obligations.ReadDelayTimerBeforeDecrement := by
  unfold Obligations.ReadDelayTimerBeforeDecrement
  refine ⟨fun s x => exec_of_setV rfl, fun s x hrun hpc hd => ?_⟩
  have hread : (s.fetched.setV x s.dt).tick.getV x = s.dt := s.fetched.getV_setV_same x s.dt
  refine ⟨_, step_of_exec_completes hrun hpc hd rfl rfl, hread, fun hpos => ?_, fun hzero => ⟨hread.trans hzero, ?_⟩⟩
  · exact (congrArg BitVec.toNat hread).trans (toNat_eq_tickTimer_add_one hpos)
  · exact congrArg tickTimer hzero

/-- Settles O38: each handler is one write of its timer, and the step's end counts both. -/
theorem setTimersThenDecrement : Obligations.SetTimersThenDecrement := by
  unfold Obligations.SetTimersThenDecrement
  refine ⟨fun s x => ⟨⟨_, rfl, rfl, rfl⟩, ⟨_, rfl, rfl, rfl⟩⟩, fun s x hrun hpc => ⟨fun hd => ?_, fun hd => ?_⟩⟩
  · exact ⟨_, step_of_exec_completes hrun hpc hd rfl rfl, tickTimer_toNat (s.getV x), tickTimer_toNat s.st⟩
  · exact ⟨_, step_of_exec_completes hrun hpc hd rfl rfl, tickTimer_toNat (s.getV x), tickTimer_toNat s.dt⟩

end Sys2Proof.Proofs
end

section
/-! SUPPORT. Index register and memory: the values written to `I`, the decimal digits as numbers, and what a block
transfer leaves in memory, in the registers, or in the fault status. -/

namespace Sys2Proof.Machine

/-! ### Values of `I` and of the digits -/

/-- R10: the font lies low enough for `FONT_BASE + 5 * V[x]` not to wrap, whatever the byte (R182). -/
theorem fontAddress_lt {p : Params} (hp : p.WellFormed) (b : Byte) : p.fontBase.toNat + 5 * b.toNat < 2 ^ 16 := by
  have := b.isLt
  change p.fontBase.toNat + 80 ≤ 0x200 at hp
  omega

/-- Each decimal digit of a byte fits in a byte, so it is stored exactly (R183). -/
theorem map_toNat_bcdDigits (b : Byte) :
    (bcdDigits b).map BitVec.toNat = [b.toNat / 100, b.toNat / 10 % 10, b.toNat % 10] := by
  have := b.isLt
  simp only [bcdDigits, List.map_cons, List.map_nil, BitVec.toNat_ofNat, List.cons.injEq, and_true]
  omega

section Blocks

variable {s t u : State} {i : Instr} {x : Reg} {len : Nat}

/-! ### A block that does not fit -/

/-- A memory instruction whose block overruns memory raises MEM_RANGE with the block's first bad address (R55). -/
theorem AccessesBlock.exec_of_overruns (h : AccessesBlock i len) (hlen : len ≠ 0) (hbig : s.i.toNat + len > 0x1000) :
    exec i s = .next (s.raise ⟨.memRange, BitVec.ofNat 17 (max s.i.toNat 0x1000)⟩) :=
  exec_of_raises ((h.raises_eq s).trans (if_pos ⟨hlen, hbig⟩))

/-! ### A block stored -/

/-- Of a list of bytes written at `a`, byte `j` is read back at `a + j`. -/
theorem State.readByte_writeBytes_at (hm : Memory.wf s.params s.mem) {a j : Nat} {bs : List Byte}
    (ha : a + bs.length ≤ Config.memSize) (hj : j < bs.length) : (s.writeBytes a bs).readByte (a + j) = bs[j] := by
  rw [s.readByte_writeBytes hm a bs ha, dif_pos ⟨a.le_add_right j, by rwa [Nat.add_sub_cancel_left]⟩]
  simp only [Nat.add_sub_cancel_left]

/-- After Fx33 the block at `I` reads as the digits of `V[x]` (R183). -/
theorem readByte_toNat_of_exec_ldBcd (h : exec (.ldBcd x) s = .next t) (hm : Memory.wf s.params s.mem)
    (hfit : s.i.toNat + 2 ≤ 0xFFF) (j : Nat) (hj : j < 3) :
    (t.readByte (s.i.toNat + j)).toNat =
      [(s.getV x).toNat / 100, (s.getV x).toNat / 10 % 10, (s.getV x).toNat % 10][j]'hj := by
  have hin : s.i.toNat + 3 ≤ 0x1000 := by omega
  obtain rfl := exec_next_inj h (exec_ldBcd_of_fits s x hin)
  simp only [← map_toNat_bcdDigits, List.getElem_map]
  exact congrArg BitVec.toNat (State.readByte_writeBytes_at hm hin hj)

/-- Memory put back, a list of bytes written changes nothing. -/
theorem State.writeBytes_restore_mem (s : State) (a : Nat) (bs : List Byte) :
    { s.writeBytes a bs with mem := s.mem } = s := by
  rw [State.writeBytes_eq]

/-- Fx55 leaves `I` as it was (D14). -/
theorem exec_storeRegs_i (h : exec (.storeRegs x) s = .next t) (hfit : s.i.toNat + x.val ≤ 0xFFF) : t.i = s.i := by
  obtain rfl := exec_next_inj h (exec_storeRegs_of_fits s x (by omega))
  rw [State.writeBytes_eq]

/-! ### A block loaded -/

/-- The register file put back, a block load changes nothing, `I` included (D14). -/
theorem State.loadBlock_restore_v (s : State) (x : Reg) : { s.loadBlock x with v := s.v } = s := by
  rw [State.loadBlock_eq]

/-- A block load from a stored block finds the registers that were stored (R184, R185). -/
theorem State.getV_loadBlock_of_stored (h : exec (.storeRegs x) s = .next t) (hm : Memory.wf s.params s.mem)
    (hfit : s.i.toNat + x.val ≤ 0xFFF) (hi : u.i = t.i) (hmem : u.mem = t.mem) (hparams : u.params = t.params)
    (q : Reg) : (u.loadBlock x).getV q = if q ≤ x then s.getV q else u.getV q := by
  rw [State.getV_loadBlock]
  refine ite_congr rfl (fun hq => ?_) fun _ => rfl
  rw [hi, exec_storeRegs_i h hfit, State.readByte_congr hparams hmem, readByte_of_exec_storeRegs h hm hfit hq]

end Blocks

end Sys2Proof.Machine
end

section
/-! SUPPORT. The statements about the index register and memory: the writers of `I`, the digits, and block transfer. -/

namespace Sys2Proof.Proofs

open Sys2Proof.Machine

/-- Settles O40: the digits are one list of bytes written at `I`; the range check precedes it. -/
theorem bcdStoresThreeDigits : Obligations.BcdStoresThreeDigits := by
  unfold Obligations.BcdStoresThreeDigits
  refine ⟨fun s x hm hfit => ?_, fun s x hbig => ?_⟩
  · have hx := exec_ldBcd_of_fits s x (by omega)
    have hdigit := readByte_toNat_of_exec_ldBcd hx hm hfit
    exact ⟨_, hx, hdigit 0 (by decide), hdigit 1 (by decide), hdigit 2 (by decide), exec_sameMemoryOutside hx hm,
      s.writeBytes_restore_mem _ _⟩
  · have hblock : AccessesBlock (.ldBcd x) 3 := .inr (.inl ⟨x, rfl, rfl⟩)
    exact hblock.exec_of_overruns (by decide) (by omega)

/-- Settles O41: the registers are one list of bytes written at `I`; the range check precedes it. -/
theorem storeRegistersWritesBlock : Obligations.StoreRegistersWritesBlock := by
  unfold Obligations.StoreRegistersWritesBlock
  refine ⟨fun s x hm hfit => ?_, fun s x hbig => ?_⟩
  · have hx := exec_storeRegs_of_fits s x (by omega)
    exact ⟨_, hx, fun _ hj => readByte_of_exec_storeRegs hx hm hfit hj, exec_sameMemoryOutside hx hm,
      s.writeBytes_restore_mem _ _⟩
  · have hblock : AccessesBlock (.storeRegs x) (x.val + 1) := .inr (.inr (.inl ⟨x, rfl, rfl⟩))
    exact hblock.exec_of_overruns x.val.succ_ne_zero (by omega)

/-- Settles O42: a block load writes the registers up to Vx and nothing else; the range check precedes it. -/
theorem loadRegistersReadsBlock : Obligations.LoadRegistersReadsBlock := by
  unfold Obligations.LoadRegistersReadsBlock
  refine ⟨fun s x hfit => ?_, fun s x hbig => ?_⟩
  · exact ⟨_, exec_loadRegs_of_fits s x (by omega), s.getV_loadBlock x, s.loadBlock_restore_v x⟩
  · have hblock : AccessesBlock (.loadRegs x) (x.val + 1) := .inr (.inr (.inr ⟨x, rfl, rfl⟩))
    exact hblock.exec_of_overruns x.val.succ_ne_zero (by omega)

/-- Settles O43: the load's block is the store's, since `I`, memory and the parameters are those the store left. -/
theorem storeThenLoadRoundTrips : Obligations.StoreThenLoadRoundTrips := by
  unfold Obligations.StoreThenLoadRoundTrips
  intro s t u x hm hfit hx hi hmem hparams
  have hin : u.i.toNat + (x.val + 1) ≤ 0x1000 := by
    rw [hi, exec_storeRegs_i hx hfit]
    omega
  have hload := State.getV_loadBlock_of_stored hx hm hfit hi hmem hparams
  exact ⟨_, exec_loadRegs_of_fits u x hin, fun q hq => (hload q).trans (if_pos hq),
    fun q hq => (hload q).trans (if_neg (not_le.mpr hq))⟩

/-- Settles O39: each is one write of `I`; the immediate has 12 bits, and the font lies low enough not to wrap. -/
theorem indexRegisterWriters : Obligations.IndexRegisterWriters := by
  unfold Obligations.IndexRegisterWriters
  refine fun s x nnn => ⟨⟨_, rfl, ?_, rfl⟩, ⟨_, rfl, ?_, rfl⟩, ⟨_, rfl, rfl, fun hp => ?_⟩⟩
  · exact BitVec.toNat_setWidth_of_le (by decide)
  · exact BitVec.toNat_ofNat _ _
  · exact (BitVec.toNat_ofNat _ _).trans (Nat.mod_eq_of_lt (fontAddress_lt hp _))

end Sys2Proof.Proofs
end

section
/-! SUPPORT. The step that does not fault, and the host's ports: the key write, the framebuffer as one list, and which call a
session's phase allows. -/

namespace Sys2Proof.Machine

variable {s t : State}

/-! ### The step that does not fault -/

/-- The fetch is in range exactly when `PC` is at most 0xFFE (R55). -/
theorem State.badFetch_eq_none_iff : s.badFetch = none ↔ s.pc.toNat ≤ 0xFFE := by
  rw [State.badFetch_eq, ite_eq_right_iff]
  simp only [reduceCtorEq, imp_false, not_lt]

/-- Whether a state steps safely can be read off it before the fetch. -/
theorem State.stepsSafely_iff : s.StepsSafely ↔
    s.fault.cause = 0 ∧ s.pc.toNat ≤ 0xFFE ∧ ∀ i, decode s.fetchWord = .instr i → s.raises i = none := by
  simp only [State.StepsSafely, State.halted_eq_false_iff, State.badFetch_eq_none_iff, State.raises_fetched]

/-- From a state that steps safely the handler keeps the fault status: its instruction raises nothing, or it is NOP. -/
theorem State.StepsSafely.execute_completes (h : s.StepsSafely) :
    ∃ u, execute (decode s.fetchWord) s.fetched = .next u ∧ u.fault = s.fault := by
  obtain ⟨_, _, hnone⟩ := h
  cases hd : decode s.fetchWord with
  | nop => exact ⟨s.fetched, rfl, rfl⟩
  | instr i => exact exec_of_raises_none (hnone i hd)

/-- A state that steps safely steps to a running one. -/
theorem State.StepsSafely.step_keeps_running (h : s.StepsSafely) : ∃ t, step s = .next t ∧ t.fault.cause = 0 := by
  obtain ⟨hrun, hpc, _⟩ := State.stepsSafely_iff.mp h
  obtain ⟨u, hx, hu⟩ := h.execute_completes
  exact ⟨u.tick, step_of_completes hrun hpc hx hu, (congrArg FaultStatus.cause hu).trans hrun⟩

/-! ### The key write -/

section KeyWrite

variable (s : State) (pressed : Bool)

/-- A key index up to 15 is written (R215). -/
theorem portSetKey_of_lt {k : Nat} (hk : k < 16) :
    portSetKey k pressed s = .ok { s with keys := s.keys.set k pressed hk } :=
  dif_pos hk

/-- A key index above 15 is refused (R215). -/
theorem portSetKey_of_gt {k : Nat} (hk : k > 15) : portSetKey k pressed s = .error .keyIndexOutside :=
  dif_neg (by omega)

/-- The key written reads as written, every other key as before. -/
theorem State.keyPressed_set_key (k j : Fin 16) :
    ({ s with keys := s.keys.set k.val pressed k.isLt } : State).keyPressed j =
      if j = k then pressed else s.keyPressed j := by
  simp only [State.keyPressed, Vector.getElem_set, Fin.ext_iff, eq_comm]

end KeyWrite

/-- The keypad put back, a key write changes nothing. -/
theorem portSetKey_restore_keys {k : Nat} {pressed : Bool} (h : portSetKey k pressed s = .ok t) :
    { t with keys := s.keys } = s := by
  by_cases hk : k < 16
  · rw [portSetKey_of_lt s pressed hk] at h
    obtain rfl := Except.ok.inj h
    rfl
  · rw [portSetKey_of_gt s pressed (by omega)] at h
    cases h

/-! ### The framebuffer as one list -/

section ReadFB

variable (c : Fin 64) (r : Fin 32)

/-- The linear index of cell `(c, r)` (R218). -/
def cellIndex : Fin (32 * 64) := ⟨r.val * 64 + c.val, by omega⟩

theorem cellIndex_val : (cellIndex c r).val = r.val * 64 + c.val := rfl

theorem cellIndex_modNat : (cellIndex c r).modNat = c :=
  Fin.ext (by rw [Fin.coe_modNat, cellIndex_val]; omega)

theorem cellIndex_divNat : (cellIndex c r).divNat = r :=
  Fin.ext (by rw [Fin.coe_divNat, cellIndex_val]; omega)

/-- Word `k` of the list presents the cell whose linear index is `k` (R218). -/
theorem portReadFB_eq_ofFn (w : Nat) (s : State) :
    portReadFB w s = List.ofFn fun k : Fin (32 * 64) => if s.fb.get k.modNat k.divNat then BitVec.allOnes w else 0 := by
  have hcell : ∀ c r h, (⟨r.val * 64 + c.val, h⟩ : Fin (32 * 64)) = cellIndex c r := fun _ _ _ => rfl
  simp only [portReadFB, List.ofFn_mul, hcell, cellIndex_modNat, cellIndex_divNat, List.ofFn_eq_map, List.flatMap]

end ReadFB

/-! ### Which call a phase allows -/

section Calls

variable (h : Session)

theorem Session.call_step_of_not_loaded (hp : h.phase ≠ .loaded) : h.call .step = (h, some .notNow) :=
  if_neg hp

theorem Session.call_step_of_loaded (hp : h.phase = .loaded) (hx : step h.core = .next t) :
    h.call .step = ({ phase := .loaded, core := t }, none) := by
  rw [Session.call, if_pos hp, hx, hp]
  rfl

theorem Session.call_load_of_not_initialised (hp : h.phase ≠ .initialised) (image : Option (List Byte)) :
    h.call (.load image) = (h, some .notNow) :=
  if_neg hp

/-- In every phase, the keypad put back, a key write changes nothing. -/
theorem Session.call_setKey_restore_keys (k : Nat) (pressed : Bool) :
    { (h.call (.setKey k pressed)).1.core with keys := h.core.keys } = h.core := by
  rw [Session.call]
  split
  · split
    case h_1 t hkey => exact portSetKey_restore_keys hkey
    case h_2 => rfl
  · rfl

end Calls

end Sys2Proof.Machine
end

section
/-! SUPPORT. The statements about the faults and the host's ports: when a step faults, SetKey, ReadFB, and the order of a
session's calls. -/

namespace Sys2Proof.Proofs

open Sys2Proof.Machine

/-- Settles O10: the fetch is out of range, or the instruction raises, or the state steps safely. -/
theorem stepFaultsExactlyAsTableSays : Obligations.StepFaultsExactlyAsTableSays := by
  unfold Obligations.StepFaultsExactlyAsTableSays
  refine ⟨fun _ => step_of_fetch_out_of_range, fun s i hrun hpc hd => ⟨fun r hr => step_of_raises hrun hpc hd hr,
    fun hnone => ?_⟩, fun s hrun hpc hnop => ?_, fun _ hsafe => hsafe.step_keeps_running⟩
  · have hraises : ∀ j, decode s.fetchWord = .instr j → s.raises j = none := fun _ hj =>
      Decoded.instr.inj (hd.symm.trans hj) ▸ hnone
    exact (State.stepsSafely_iff.mpr ⟨hrun, hpc, hraises⟩).step_keeps_running
  · exact (State.stepsSafely_iff.mpr ⟨hrun, hpc, fun _ hj => nomatch hnop.symm.trans hj⟩).step_keeps_running

/-- Settles O48: index `r * 64 + c` divides by 64 into row `r` and column `c`. -/
theorem readFramebufferIsRowMajor : Obligations.ReadFramebufferIsRowMajor := by
  unfold Obligations.ReadFramebufferIsRowMajor
  intro w s
  rw [portReadFB_eq_ofFn]
  refine ⟨List.length_ofFn, fun c r => (List.getElem?_ofFn (i := (cellIndex c r).val)).trans ?_⟩
  simp only [(cellIndex c r).isLt, dif_pos, Fin.eta, cellIndex_modNat, cellIndex_divNat]

/-- Settles O47: an index up to 15 sets one cell of the keypad, a higher one is refused. -/
theorem setKeyWritesOneCell : Obligations.SetKeyWritesOneCell := by
  unfold Obligations.SetKeyWritesOneCell
  refine ⟨fun s k pressed => ?_, fun s _ pressed hk => portSetKey_of_gt s pressed hk⟩
  have hset := portSetKey_of_lt s pressed k.isLt
  exact ⟨_, hset, s.keyPressed_set_key pressed k, portSetKey_restore_keys hset⟩

/-- Settles O49: each call by the phase that allows it; after Load, Load is refused and SetKey writes the keypad only. -/
theorem sessionOrdersHostCalls : Obligations.SessionOrdersHostCalls := by
  unfold Obligations.SessionOrdersHostCalls
  refine ⟨fun h hp => h.call_step_of_not_loaded hp, fun h image hp => h.call_load_of_not_initialised hp image,
    fun h image hp hlen => ?_, fun h t hp hx => h.call_step_of_loaded hp hx, fun h c hp hInit hStep => ?_⟩
  · have hload := portLoad_of_fits h.core hlen
    exact ⟨_, hload, Session.call_load_ok hp hload⟩
  · cases c with
    | init seed forced => exact absurd rfl (hInit seed forced)
    | load image => rw [h.call_load_of_not_initialised (by simp [hp]) image]
    | setKey k pressed => exact h.call_setKey_restore_keys k pressed
    | step => exact absurd rfl hStep

end Sys2Proof.Proofs
end
